-- ==== Sys2Proof/Word.lean ====
section
/-! DEFINITION. The widths of TSPE's words, records and byte sequences (spec rules R5, R11, R13, R77, R82 to R84). -/

namespace Sys2Proof

/-- A byte, 0..255 (R11). -/
abbrev Byte := BitVec 8

/-- A command word `W`, `CMD_BITS` = 32 (R5, R77). -/
abbrev Word := BitVec 32

/-- A response record `R`, `RSP_BITS` = 8 (R5, R82). -/
abbrev RspRecord := BitVec 8

/-- An `EOUT` or `DOUT` record, `OUT_BITS` = 9: bit 8 is `MARK`, bits 7..0 are `DATA` (R5, R83, R84). -/
abbrev OutRecord := BitVec 9

/-- A byte sequence (R11); also the form of a container (R76). -/
abbrev Bytes := List Byte

/-- A 4-bit continuity counter value (R21, R70). -/
abbrev Count4 := BitVec 4

/-- A 13-bit channel identifier (R24, R70). -/
abbrev ChannelId := BitVec 13

end Sys2Proof
end

