-- ==== Sys2Proof/Config.lean ====
section
/-! DEFINITION. The build-time parameters of TSPE (spec rules R5 to R7): the constants the spec fixes, the record of the
two parameters a model may take as arguments, and the one value the spec leaves OPEN. -/

namespace Sys2Proof

/-- `HEADER_BYTES` (R5): bytes of the bit-packed packet header; not an argument (R6). -/
def headerBytes : Nat := 4

/-- `HEAD_RESERVE` (R5): bytes of the per-chunk head; not an argument (R6). -/
def headReserve : Nat := 4

/-- `SYNC` (R5). -/
def syncByte : Byte := 0x47

/-- `STUFF` (R5). -/
def stuffByte : Byte := 0xFF

/-- `CHID_MAX` (R5). -/
def chidMax : Nat := 8191

/-- The two parameters fixed when the hardware is built that the rules use by name (R5, R6, R7). Every definition of
the model that depends on them takes this record as an argument, so that one definition serves every legal build. -/
structure Build where
  /-- `PACKET_SIZE` (R5). -/
  packetSize : Nat
  /-- `CONTAINER_SIZE_CAP` (R7). -/
  containerSizeCap : Nat
  deriving DecidableEq, Repr

/-- `PAYLOAD_CAPACITY = PACKET_SIZE − HEADER_BYTES` (R5). -/
def Build.payloadCapacity (p : Build) : Nat := p.packetSize - headerBytes

/-- `CHUNK_SIZE = PAYLOAD_CAPACITY − HEAD_RESERVE` (R5). -/
def Build.chunkSize (p : Build) : Nat := p.payloadCapacity - headReserve

/-- `MAX_PKTS = floor(CONTAINER_SIZE_CAP / PACKET_SIZE)` (R5, R131 e). -/
def Build.maxPkts (p : Build) : Nat := p.containerSizeCap / p.packetSize

/-- How far this machine's `CONTAINER_SIZE_CAP` lies above its least legal value. OPEN in the spec (R7, decision D8): a
free value, so nothing can be proved of the cap except `CONTAINER_SIZE_CAP ≥ PACKET_SIZE` (log entry 1). -/
opaque Config.capExcess : Nat

/-- The build of the machine that `exec` and `step` run: `PACKET_SIZE` = 188 (R5) and a free `CONTAINER_SIZE_CAP` that
meets the constraint of R7. -/
def Config.build : Build :=
  { packetSize := 188, containerSizeCap := 188 + Config.capExcess }

end Sys2Proof
end

