-- ==== Sys2Proof/Syntax.lean ====
section
/-! DEFINITION. The abstract syntax: the eight commands of rule R78 with their operands (R79), and the lines of the
assembler notation of rules R86 and R87. -/

namespace Sys2Proof

/-- One constructor per row of the command set (R78). The width of each operand is that of its field (R79), so a term
of this type is always well-formed. -/
inductive Instr where
  /-- `CFG.CHID imm16` (R100). -/
  | cfgChid (imm16 : BitVec 16)
  /-- `ENC.START` (R120). -/
  | encStart
  /-- `ENC.PUT imm8` (R121). -/
  | encPut (imm8 : Byte)
  /-- `ENC.END` (R122). -/
  | encEnd
  /-- `DEC.START` (R141). -/
  | decStart
  /-- `DEC.PUT imm8` (R142). -/
  | decPut (imm8 : Byte)
  /-- `DEC.EOC` (R143). -/
  | decEoc
  /-- `DEC.END` (R144). -/
  | decEnd
  deriving DecidableEq, Repr

/-- The eight mnemonics of R78, as the assembler reads them before it has looked at an operand. -/
inductive Mnemonic where
  | cfgChid | encStart | encPut | encEnd | decStart | decPut | decEoc | decEnd
  deriving DecidableEq, Repr

/-- One non-blank line of assembler source (R86, R87). Operands are plain numbers here: the assembler must be able to
see, and refuse, a number that no word can carry. -/
inductive AsmLine where
  /-- A command, with the operand written after it if there is one (R86). -/
  | command (m : Mnemonic) (operand : Option Nat)
  /-- `ENC.DATA b0 b1 ... bk` (R87). -/
  | encData (bs : List Nat)
  /-- `ENC.FILL v, n` (R87). -/
  | encFill (v n : Nat)
  /-- `DEC.DATA b0 b1 ... bk` (R87). -/
  | decData (bs : List Nat)
  /-- `DEC.FILL v, n` (R87). -/
  | decFill (v n : Nat)
  deriving DecidableEq, Repr

end Sys2Proof
end

