-- ==== Sys2Proof/WellFormed.lean ====
section
/-! DEFINITION. What is refused before anything runs: a build that breaks a constraint of rules R6 and R7, and an
assembler line that rules R86 and R87 refuse. A term of `Instr` needs no check: its operand widths are in its types. -/

namespace Sys2Proof

/-- The constraints on a build: `HEADER_BYTES + HEAD_RESERVE < PACKET_SIZE` and `CHUNK_SIZE ≤ 65535` (R6),
`CONTAINER_SIZE_CAP ≥ PACKET_SIZE` (R7). A build that breaks one is not a TSPE. -/
def Build.wf (p : Build) : Bool :=
  decide (headerBytes + headReserve < p.packetSize) &&
  decide (p.chunkSize ≤ 65535) &&
  decide (p.packetSize ≤ p.containerSizeCap)

/-- The largest operand each mnemonic accepts, `none` for a command without operand (R79, R86). `CFG.CHID` accepts
operands above `CHID_MAX`: TSPE, not the assembler, refuses those. -/
def Mnemonic.operandMax : Mnemonic → Option Nat
  | .cfgChid => some 65535
  | .encPut => some 255
  | .decPut => some 255
  | .encStart => none
  | .encEnd => none
  | .decStart => none
  | .decEoc => none
  | .decEnd => none

/-- Is a number a byte operand (R86)? -/
def byteOperandOk (n : Nat) : Bool := decide (n ≤ 255)

/-- What the assembler accepts: an operand exactly where the command has one and no larger than its field (R86); one or
more byte operands after `DATA`, a byte to repeat after `FILL` (R87). DESIGN CHOICE (log entry 13): the byte of `FILL` is
checked also when it is repeated 0 times; the spec does not say whether such a line, which expands to no word, is refused. -/
def AsmLine.wf : AsmLine → Bool
  | .command m operand =>
    match m.operandMax, operand with
    | none, none => true
    | some limit, some n => decide (n ≤ limit)
    | none, some _ => false
    | some _, none => false
  | .encData bs => !bs.isEmpty && bs.all byteOperandOk
  | .encFill v _ => byteOperandOk v
  | .decData bs => !bs.isEmpty && bs.all byteOperandOk
  | .decFill v _ => byteOperandOk v

end Sys2Proof
end

