-- ==== Sys2Proof/Decode.lean ====
section
/-! DEFINITION. Decoding and encoding of command words (spec rules R77 to R81, R88): the command table as data, the
decoder (total, refusing by name), the encoder, and the assembler's expansion of a line into words (R86, R87). -/

namespace Sys2Proof

/-- One row of the command table of R78. -/
structure OpcodeRow where
  mnemonic : Mnemonic
  matchBits : Word
  mask : Word
  deriving DecidableEq, Repr

/-- The command table of R78, row by row as the spec prints it. The decoder does not use it; that the two agree is a
statement of its own. -/
def opcodeTable : List OpcodeRow :=
  [ { mnemonic := .cfgChid,  matchBits := 0x01000000, mask := 0xFFFF0000 },
    { mnemonic := .encStart, matchBits := 0x10000000, mask := 0xFFFFFFFF },
    { mnemonic := .encPut,   matchBits := 0x11000000, mask := 0xFFFFFF00 },
    { mnemonic := .encEnd,   matchBits := 0x12000000, mask := 0xFFFFFFFF },
    { mnemonic := .decStart, matchBits := 0x20000000, mask := 0xFFFFFFFF },
    { mnemonic := .decPut,   matchBits := 0x21000000, mask := 0xFFFFFF00 },
    { mnemonic := .decEoc,   matchBits := 0x22000000, mask := 0xFFFFFFFF },
    { mnemonic := .decEnd,   matchBits := 0x23000000, mask := 0xFFFFFFFF } ]

/-- Is `w` the command of row `r`: `(W AND mask) = match` (R78). -/
def OpcodeRow.accepts (r : OpcodeRow) (w : Word) : Bool := w &&& r.mask == r.matchBits

/-- The mnemonic of a command. -/
def Instr.mnemonic : Instr → Mnemonic
  | .cfgChid _ => .cfgChid
  | .encStart => .encStart
  | .encPut _ => .encPut
  | .encEnd => .encEnd
  | .decStart => .decStart
  | .decPut _ => .decPut
  | .decEoc => .decEoc
  | .decEnd => .decEnd

/-- `OP = W[31:24]` (R77). -/
def opField (w : Word) : BitVec 8 := w.extractLsb' 24 8

/-- `RSV = W[23:16]` (R77). -/
def rsvField (w : Word) : BitVec 8 := w.extractLsb' 16 8

/-- `IMM = W[15:0]` (R77). -/
def immField (w : Word) : BitVec 16 := w.extractLsb' 0 16

/-- `W[15:8]`, which a byte operand leaves zero (R79). -/
def immHighField (w : Word) : BitVec 8 := w.extractLsb' 8 8

/-- `imm8 = W[7:0]` (R79). -/
def immLowField (w : Word) : BitVec 8 := w.extractLsb' 0 8

/-- Why a word is an illegal encoding: the four cases of R80, in its order. TSPE answers all four alike (R174). -/
inductive IllegalEncoding where
  /-- (a) `OP` is none of the eight operation codes. -/
  | unusedOp
  /-- (b) `RSV ≠ 0x00`. -/
  | reservedBits
  /-- (c) a command without operand with `IMM ≠ 0x0000`. -/
  | unusedOperandBits
  /-- (d) `ENC.PUT` or `DEC.PUT` with `W[15:8] ≠ 0x00`. -/
  | wideByteOperand
  deriving DecidableEq, Repr

/-- What `Decode(W)` returns (R81): one of the eight commands with its operand, or `Illegal`. -/
inductive Decoded where
  | command (i : Instr)
  | illegal (why : IllegalEncoding)
  deriving DecidableEq, Repr

/-- The check common to all commands: `RSV = 0x00` (R77, R80 b). -/
def decodeReserved (w : Word) (k : Decoded) : Decoded :=
  if rsvField w = 0 then k else .illegal .reservedBits

/-- A command without operand: `IMM = 0x0000` (R77, R80 c). -/
def decodePlain (w : Word) (i : Instr) : Decoded :=
  decodeReserved w (if immField w = 0 then .command i else .illegal .unusedOperandBits)

/-- A command with a byte operand: `W[15:8] = 0x00`, `imm8 = W[7:0]` (R79, R80 d). -/
def decodeByte (w : Word) (mk : Byte → Instr) : Decoded :=
  decodeReserved w
    (if immHighField w = 0 then .command (mk (immLowField w)) else .illegal .wideByteOperand)

/-- `Decode(W)` (R81): total, and a function of `W` alone. -/
def decode (w : Word) : Decoded :=
  if opField w = 0x01 then decodeReserved w (.command (.cfgChid (immField w)))
  else if opField w = 0x10 then decodePlain w .encStart
  else if opField w = 0x11 then decodeByte w .encPut
  else if opField w = 0x12 then decodePlain w .encEnd
  else if opField w = 0x20 then decodePlain w .decStart
  else if opField w = 0x21 then decodeByte w .decPut
  else if opField w = 0x22 then decodePlain w .decEoc
  else if opField w = 0x23 then decodePlain w .decEnd
  else .illegal .unusedOp

/-- A command word from its three fields (R77). -/
def packWord (op rsv : BitVec 8) (imm : BitVec 16) : Word := op ++ rsv ++ imm

/-- The word of a command (R77, R78, R79). -/
def encode : Instr → Word
  | .cfgChid imm16 => packWord 0x01 0 imm16
  | .encStart => packWord 0x10 0 0
  | .encPut imm8 => packWord 0x11 0 (imm8.setWidth 16)
  | .encEnd => packWord 0x12 0 0
  | .decStart => packWord 0x20 0 0
  | .decPut imm8 => packWord 0x21 0 (imm8.setWidth 16)
  | .decEoc => packWord 0x22 0 0
  | .decEnd => packWord 0x23 0 0

/-- The word whose bits, bit 0 the least significant, are those of `w` below `nbits` and 0 above (R13: the table numbers
a word's bits as the spec does; a word is transferred whole, so there is no byte order, R56). -/
def tableWord (nbits w : Nat) : Word := BitVec.ofNat 32 (w % 2 ^ nbits)

/-- The command this decoder reads from a row of the opcode table with its variable bits filled in. -/
def decodeTableWord (nbits w : Nat) : Option Instr :=
  match decode (tableWord nbits w) with
  | .command i => some i
  | .illegal _ => none

/-- The command a mnemonic and an operand stand for (R78, R86); the operand is one that `AsmLine.wf` accepts. -/
def Mnemonic.toInstr (m : Mnemonic) (operand : Nat) : Instr :=
  match m with
  | .cfgChid => .cfgChid (BitVec.ofNat 16 operand)
  | .encStart => .encStart
  | .encPut => .encPut (BitVec.ofNat 8 operand)
  | .encEnd => .encEnd
  | .decStart => .decStart
  | .decPut => .decPut (BitVec.ofNat 8 operand)
  | .decEoc => .decEoc
  | .decEnd => .decEnd

/-- The commands a well-formed line stands for: itself, or the expansion of a pseudo-instruction (R87). -/
def AsmLine.expand : AsmLine → List Instr
  | .command m operand => [m.toInstr (operand.getD 0)]
  | .encData bs => bs.map (fun b => .encPut (BitVec.ofNat 8 b))
  | .encFill v n => List.replicate n (.encPut (BitVec.ofNat 8 v))
  | .decData bs => bs.map (fun b => .decPut (BitVec.ofNat 8 b))
  | .decFill v n => List.replicate n (.decPut (BitVec.ofNat 8 v))

/-- The assembler on one line: its words, or a refusal (R86). -/
def AsmLine.assemble (l : AsmLine) : Option (List Word) :=
  if l.wf then some (l.expand.map encode) else none

end Sys2Proof
end

