-- ==== Sys2Proof/Machine/State.lean ====
section
/-! DEFINITION. The state of TSPE (spec rules R20 to R32), the list of HOST's steps it is about to meet (R10, R22, R28), and
the reasons a step could stop. Plain data throughout. -/

namespace Sys2Proof.Machine

/-- Configuration state (R24): the control register `CHID` and its valid flag `CHID_V`. -/
structure Cfg where
  /-- `CHID[12:0]`. -/
  chid : ChannelId
  /-- `CHID_V` (R23). -/
  chidV : Bool
  deriving DecidableEq, Repr

/-- ENC state, as R34 lists it: `CC`, `EFIRST`, `EBUSY`, `CBUF`, `GBUF` and channel `EOUT`. -/
structure Enc where
  /-- `EBUSY`: an encode is in progress (R23). -/
  ebusy : Bool
  /-- `EFIRST`: the next packet built is packet 0 of the encode (R21). -/
  efirst : Bool
  /-- `CC`: the continuity counter of the next packet (R21). -/
  cc : Count4
  /-- `CBUF`: the chunk being collected (R25). -/
  cbuf : Bytes
  /-- `GBUF`: the packets built since the last container was emitted, in the order built (R25). -/
  gbuf : List Bytes
  /-- `EOUT`: every record emitted so far, in emission order (R27). -/
  eout : List OutRecord
  deriving DecidableEq, Repr

/-- DEC state, as R34 lists it: `DCC`, `DBUSY`, `DFAIL`, `DCCW`, `PBUF`, `ACC` and channel `DOUT`. -/
structure Dec where
  /-- `DBUSY`: a group decode is in progress (R23). -/
  dbusy : Bool
  /-- `DFAIL`: the group has failed (R23). -/
  dfail : Bool
  /-- `DCCW`: the continuity warning (R23). -/
  dccw : Bool
  /-- `DCC`: the continuity counter expected next (R21). -/
  dcc : Count4
  /-- `PBUF`: the packet being collected (R26). -/
  pbuf : Bytes
  /-- `ACC`: the output accumulated for the group; unbounded (R26, R63). -/
  acc : Bytes
  /-- `DOUT`: every record emitted so far, in emission order (R27). -/
  dout : List OutRecord
  deriving DecidableEq, Repr

/-- The three output channels (R27). -/
inductive Channel where
  | rsp | eout | dout
  deriving DecidableEq, Repr

/-- The steps HOST can take (R10). -/
inductive HostEvent where
  /-- Present a command word on port `CMD` (R28). -/
  | command (w : Word)
  /-- Take a record from an output channel (R10, R57). -/
  | take (ch : Channel)
  /-- Cause the `RESET` event (R190). -/
  | reset
  deriving DecidableEq, Repr

/-- HOST's side of the ports. `CMD` holds no state of TSPE (R28): what is here is HOST's list of steps still to come and
the model's count of the commands taken. -/
structure HostPort where
  /-- HOST's steps not yet taken, the next one first (R22: HOST's finite command list). -/
  pending : List HostEvent
  /-- How many commands have been taken since reset: R22's equivalent of a program counter. -/
  cmdIndex : Nat
  /-- How many records `RSP` held at the last reset: R192, the response count starts again there. -/
  rspBase : Nat
  deriving DecidableEq, Repr

/-- The complete state (R20): configuration, encoder, decoder, the response channel, and HOST's side of the ports. -/
structure State where
  cfg : Cfg
  enc : Enc
  dec : Dec
  /-- `RSP`: every response emitted so far, in emission order (R27). -/
  rsp : List RspRecord
  host : HostPort
  deriving DecidableEq, Repr

/-- The state after power-on, which is the reset state with nothing emitted yet (R32, R191). The spec gives `CHID` no
value; 0 is the model's (log entry 2). -/
def State.reset : State :=
  { cfg := { chid := 0, chidV := false }
    enc := { ebusy := false, efirst := true, cc := 0, cbuf := [], gbuf := [], eout := [] }
    dec := { dbusy := false, dfail := false, dccw := false, dcc := 0, pbuf := [], acc := [], dout := [] }
    rsp := []
    host := { pending := [], cmdIndex := 0, rspBase := 0 } }

/-- The reasons TSPE could stop with a fault: none. Every error of TSPE is a response, after which it takes the next
command (R177, R180: there is no fatal state and no lock-up state). Nobody raises a fault, which is safe: nothing the
hardware does is cut off by one. -/
inductive Fault where
  deriving DecidableEq, Repr

/-- The reasons the model could refuse a step. -/
inductive Refusal where
  /-- Raised by an arm of `exec` whose instruction has no meaning yet; no arm does. Safe: the model stops where the
  hardware goes on. -/
  | notModelled (mnemonic : String)
  deriving DecidableEq, Repr

end Sys2Proof.Machine
end

