-- ==== Sys2Proof/Machine/Format.lean ====
section
/-! DEFINITION. The data formats, bit-exact: packet header, head, payload, packet (spec rules R12, R53 to R55, R70 to R75,
R113, R116, R117), and the response and output records (R82 to R84). -/

namespace Sys2Proof.Machine

/-- `s[a:b]`: the elements with indices `a ≤ i < b`, `b` clipped to the length (R11). -/
def slice {α : Type} (s : List α) (a b : Nat) : List α := (s.drop a).take (b - a)

/-- `s[i]` of a byte sequence (R11). Every use is at an index inside the sequence when the procedures are called as the
spec calls them; outside it the value is 0 (log entry 11). -/
def byteAt (s : Bytes) (i : Nat) : Byte := s.getD i 0

/-- The bit at bit offset `k` of a byte sequence: bit `7 − (k mod 8)` of byte `floor(k / 8)` (R12). -/
def bitAtOffset (s : Bytes) (k : Nat) : Bool := (byteAt s (k / 8)).getLsbD (7 - k % 8)

/-- The unsigned value of the field of width `w` at bit offset `k`, most significant bit first (R12). -/
def fieldAtOffset (s : Bytes) (k : Nat) : Nat → Nat
  | 0 => 0
  | w + 1 => 2 * fieldAtOffset s k w + (bitAtOffset s (k + w)).toNat

/-- `PackHeader(chid, cc)` (R72). -/
def packHeader (chid : ChannelId) (cc : Count4) : Bytes :=
  [syncByte, (0b010#3 ++ chid.extractLsb' 8 5 : BitVec 8), chid.extractLsb' 0 8, (0b0001#4 ++ cc : BitVec 8)]

/-- The eight header fields (R70). -/
structure Header where
  syncf : Byte
  erri : BitVec 1
  pstart : BitVec 1
  prio : BitVec 1
  chidf : ChannelId
  scr : BitVec 2
  afc : BitVec 2
  ccf : Count4
  deriving DecidableEq, Repr

/-- `UnpackHeader(h)` (R73). -/
def unpackHeader (h : Bytes) : Header :=
  { syncf := byteAt h 0
    erri := (byteAt h 1).extractLsb' 7 1
    pstart := (byteAt h 1).extractLsb' 6 1
    prio := (byteAt h 1).extractLsb' 5 1
    chidf := ((byteAt h 1).extractLsb' 0 5 ++ byteAt h 2 : BitVec 13)
    scr := (byteAt h 3).extractLsb' 6 2
    afc := (byteAt h 3).extractLsb' 4 2
    ccf := (byteAt h 3).extractLsb' 0 4 }

/-- The three roles of a packet (R112, R153). -/
inductive Status where
  | first | middle | last
  deriving DecidableEq, Repr

/-- `ST_FIRST`, `ST_MIDDLE`, `ST_LAST` (R5). -/
def Status.code : Status → Byte
  | .first => 0
  | .middle => 1
  | .last => 2

/-- The discriminator: 0, 1, 2, and nothing else (R153). -/
def Status.ofByte (b : Byte) : Option Status :=
  if b = 0 then some .first else if b = 1 then some .middle else if b = 2 then some .last else none

/-- `Annotate(c, st)` (R113): `STATUS`, `HRSV` = 0, `LEN` most significant byte first (R55, R74), then the chunk. -/
def annotate (c : Bytes) (st : Status) : Bytes :=
  [st.code, 0x00, (BitVec.ofNat 16 c.length).extractLsb' 8 8, (BitVec.ofNat 16 c.length).extractLsb' 0 8] ++ c

/-- `BuildPacket(chid, cc, st, c)` (R117): header, annotated chunk, stuffing (R116). -/
def buildPacket (p : Build) (chid : ChannelId) (cc : Count4) (st : Status) (c : Bytes) : Bytes :=
  packHeader chid cc ++ annotate c st ++ List.replicate (p.chunkSize - c.length) stuffByte

/-- `CCF = P[3][3:0]` (R151). -/
def readCounter (P : Bytes) : Count4 := (byteAt P 3).extractLsb' 0 4

/-- `st = P[4]`, if the discriminator recognizes it (R152, R153). -/
def readStatus (P : Bytes) : Option Status := Status.ofByte (byteAt P 4)

/-- `L = P[6] × 256 + P[7]` (R152). -/
def readLen (P : Bytes) : Nat := (byteAt P 6).toNat * 256 + (byteAt P 7).toNat

/-- `data = P[8 : 8 + L]` (R154). -/
def readData (P : Bytes) : Bytes := slice P 8 (8 + readLen P)

/-- The four response codes (R82, R170). -/
inductive RspCode where
  | ok | configurationError | framingError | illegalCommand
  deriving DecidableEq, Repr

/-- The field `CODE` (R82). -/
def RspCode.bits : RspCode → BitVec 2
  | .ok => 0
  | .configurationError => 1
  | .framingError => 2
  | .illegalCommand => 3

/-- A response record: `R[7:3] = 0`, `R[2] = CCW`, `R[1:0] = CODE` (R82). -/
def rspRecord (code : RspCode) (ccw : Bool) : RspRecord := 0#5 ++ BitVec.ofBool ccw ++ code.bits

/-- A data record, `MARK = 0` (R83, R84). -/
def dataRecord (x : Byte) : OutRecord := 0#1 ++ x

/-- The record 0x100, `MARK = 1`: `EOC` on `EOUT`, `EOB` on `DOUT` (R83, R84). -/
def markRecord : OutRecord := 0x100

/-- The records of one container or one output buffer: its bytes in order, then the closing mark (R119, R144). -/
def closedRecords (bytes : Bytes) : List OutRecord := bytes.map dataRecord ++ [markRecord]

end Sys2Proof.Machine
end

