-- ==== Sys2Proof/Machine/Operands.lean ====
section
/-! DEFINITION. The operand forms and the checks the commands make on operands and packets (spec rules R79, R100, R131,
R153, R154). -/

namespace Sys2Proof.Machine

/-- The operand of `CFG.CHID`: `imm16[12:0]` if `imm16 ≤ CHID_MAX`, refused above; no truncation (R79, R100, R131 d). -/
def chidOperand (imm16 : BitVec 16) : Option ChannelId :=
  if chidMax < imm16.toNat then none else some (imm16.extractLsb' 0 13)

/-- The head of a packet, if neither check of R157 fails it: the status and the data bytes (R153, R154). `none` is the
case `st > 2 or L > CHUNK_SIZE`. -/
def readHead (p : Build) (P : Bytes) : Option (Status × Bytes) :=
  match readStatus P with
  | none => none
  | some st => if p.chunkSize < readLen P then none else some (st, readData P)

end Sys2Proof.Machine
end

