-- ==== Sys2Proof/Machine/Flags.lean ====
section
/-! DEFINITION. Flag and counter computations (spec rules R21, R23, R112, R114, R118, R131, R151, R159). -/

namespace Sys2Proof.Machine

/-- `(v + 1) mod 16` (R131 a). -/
def nextCount (v : Count4) : Count4 := v + 1

/-- The status `EmitPacket(last)` gives a packet (R118): first wins over last (R112). -/
def chooseStatus (efirst last : Bool) : Status :=
  if efirst then .first else if last then .last else .middle

/-- `DCCW` after a packet with counter `ccf` (R151): sticky, set when the counter is not the expected one. -/
def warnAfter (dccw : Bool) (ccf dcc : Count4) : Bool := dccw || decide (ccf ≠ dcc)

/-- The `CODE` of a decoder response: 2 if `DFAIL = 1`, else 0 (R159). -/
def groupCode (dfail : Bool) : RspCode := if dfail then .framingError else .ok

end Sys2Proof.Machine
end

