-- ==== Sys2Proof/Machine/Ops.lean ====
section
/-! DEFINITION. The named operations on the state that the commands share: responding and raising an error (spec rules R14,
R170, R177), the encoder's procedures (R118, R119), the decoder's procedures (R150, R156, R157), and what HOST's steps do
(R10, R22, R57, R80, R184, R190). -/

namespace Sys2Proof.Machine

/-- Apply a change to the configuration state alone. -/
def State.onCfg (f : Cfg → Cfg) (s : State) : State := { s with cfg := f s.cfg }

/-- Apply a change to the encoder state alone. -/
def State.onEnc (f : Enc → Enc) (s : State) : State := { s with enc := f s.enc }

/-- Apply a change to the decoder state alone. -/
def State.onDec (f : Dec → Dec) (s : State) : State := { s with dec := f s.dec }

/-- `respond(code, ccw)` (R14): one record at the end of `RSP`, the last thing a command does. -/
def respond (code : RspCode) (ccw : Bool) (s : State) : State := { s with rsp := s.rsp ++ [rspRecord code ccw] }

/-- The error kinds a command raises (R170). `FramingError` is not among them: R159 answers it from `DFAIL`. -/
inductive ErrorKind where
  | configurationError
  | illegalCommand
  deriving DecidableEq, Repr

/-- `code(E)` (R170). -/
def ErrorKind.code : ErrorKind → RspCode
  | .configurationError => .configurationError
  | .illegalCommand => .illegalCommand

/-- `raise E` (R14), after the state changes the rule of the command lists: the hardware's whole error entry. Nothing is
saved, no mode changes, control goes nowhere (R177), and there is no return from it (R179). -/
def raise (e : ErrorKind) (s : State) : State := respond e.code false s

/-- `CHID <- v`, `CHID_V <- 1` (R100). -/
def loadChid (v : ChannelId) (c : Cfg) : Cfg := { c with chid := v, chidV := true }

/-- `CHID_V <- 0` (R100). -/
def invalidateChid (c : Cfg) : Cfg := { c with chidV := false }

/-- The state changes of an accepted `ENC.START` (R120). -/
def beginEncode (e : Enc) : Enc := { e with ebusy := true, cc := 0, efirst := true, cbuf := [], gbuf := [] }

/-- `FlushContainer()` (R119). -/
def flushContainer (e : Enc) : Enc := { e with eout := e.eout ++ closedRecords e.gbuf.flatten, gbuf := [] }

/-- The first five lines of `EmitPacket(last)` (R118): build the packet, append it to `GBUF`, empty `CBUF`, count. -/
def pushPacket (p : Build) (chid : ChannelId) (last : Bool) (e : Enc) : Enc :=
  { e with
    gbuf := e.gbuf ++ [buildPacket p chid e.cc (chooseStatus e.efirst last) e.cbuf]
    cbuf := []
    cc := nextCount e.cc
    efirst := false }

/-- The last line of `EmitPacket` (R118): a full container is flushed at once. -/
def flushIfFull (p : Build) (e : Enc) : Enc := if e.gbuf.length = p.maxPkts then flushContainer e else e

/-- `EmitPacket(last)` (R118). -/
def emitPacket (p : Build) (chid : ChannelId) (last : Bool) (e : Enc) : Enc := flushIfFull p (pushPacket p chid last e)

/-- `ENC.PUT`'s second line (R121): a full chunk is not the last one, now that a byte follows it (R123). -/
def emitFullChunk (p : Build) (chid : ChannelId) (e : Enc) : Enc :=
  if e.cbuf.length = p.chunkSize then emitPacket p chid false e else e

/-- `CBUF <- CBUF ++ [imm8]` (R121). -/
def appendInput (b : Byte) (e : Enc) : Enc := { e with cbuf := e.cbuf ++ [b] }

/-- `ENC.END`'s second line (R122): the packet for whatever `CBUF` holds is the last. -/
def emitLastChunk (p : Build) (chid : ChannelId) (e : Enc) : Enc :=
  if 1 ≤ e.cbuf.length then emitPacket p chid true e else e

/-- `ENC.END`'s third line (R122): the last, possibly short, container. -/
def flushRest (e : Enc) : Enc := if 1 ≤ e.gbuf.length then flushContainer e else e

/-- `EBUSY <- 0` (R122). -/
def endEncode (e : Enc) : Enc := { e with ebusy := false }

/-- The state changes of an accepted `DEC.START` (R141). -/
def beginGroup (d : Dec) : Dec :=
  { d with dbusy := true, dfail := false, dccw := false, dcc := 0, pbuf := [], acc := [] }

/-- `Fail()` (R156). -/
def fail (d : Dec) : Dec := { d with dfail := true, acc := [], pbuf := [] }

/-- The first two lines of `FoldPacket(P)` (R157): the continuity check and the count (R151). -/
def countPacket (P : Bytes) (d : Dec) : Dec :=
  { d with dccw := warnAfter d.dccw (readCounter P) d.dcc, dcc := nextCount d.dcc }

/-- The fold itself (R155): a first packet replaces `ACC`, any other is appended. -/
def foldData (st : Status) (data acc : Bytes) : Bytes := if st = .first then data else acc ++ data

/-- `FoldPacket(P)` (R157): the continuity check comes before the head check. -/
def foldPacket (p : Build) (P : Bytes) (d : Dec) : Dec :=
  match readHead p P with
  | none => fail (countPacket P d)
  | some (st, data) => { countPacket P d with acc := foldData st data d.acc }

/-- `PBUF <- PBUF ++ [imm8]` (R142). -/
def appendContainer (b : Byte) (d : Dec) : Dec := { d with pbuf := d.pbuf ++ [b] }

/-- The inner block of `DEC.PUT` (R142): a complete packet leaves `PBUF` and is folded. -/
def foldIfComplete (p : Build) (d : Dec) : Dec :=
  if d.pbuf.length = p.packetSize then foldPacket p d.pbuf { d with pbuf := [] } else d

/-- The state changes of `DEC.PUT` (R142): after a failure the byte is dropped. -/
def takeContainerByte (p : Build) (b : Byte) (d : Dec) : Dec :=
  if d.dfail then d else foldIfComplete p (appendContainer b d)

/-- The remainder check of `DEC.EOC` and `DEC.END` (R143, R144, R150). -/
def checkRemainder (d : Dec) : Dec := if d.dfail = false ∧ d.pbuf ≠ [] then fail d else d

/-- The emission of `DEC.END` (R144): the whole buffer and its `EOB`, or nothing for a failed group. -/
def deliver (d : Dec) : Dec := if d.dfail then d else { d with dout := d.dout ++ closedRecords d.acc }

/-- The last state changes of `DEC.END` (R144). -/
def endGroup (d : Dec) : Dec := { d with acc := [], pbuf := [], dbusy := false }

/-- `respond(2 if DFAIL = 1 else 0, DCCW)`, read after the command's state changes (R159). -/
def respondGroup (s : State) : State := respond (groupCode s.dec.dfail) s.dec.dccw s

/-- HOST's next step leaves its list (R22). -/
def dropEvent (rest : List HostEvent) (s : State) : State := { s with host := { s.host with pending := rest } }

/-- A command word is taken: it leaves HOST's list and the index of the next command advances by exactly 1, whatever the
response will be (R22). -/
def takeCommand (rest : List HostEvent) (s : State) : State :=
  { s with host := { s.host with pending := rest, cmdIndex := s.host.cmdIndex + 1 } }

/-- An illegal encoding is executed as `raise IllegalCommand`, with no state change (R80, R173 a). -/
def illegalEncoding (s : State) : State := raise .illegalCommand s

/-- HOST takes a record from a channel: no TSPE state changes, and the channels are kept as whole histories (R27, R57). -/
def takeRecord (_ : Channel) (s : State) : State := s

/-- No command is presented: TSPE is idle and keeps all state (R184 H6). -/
def idle (s : State) : State := s

/-- The `RESET` event (R190): every register, flag and buffer at its reset value, the histories as they were (R192),
nothing emitted, no response; the next command is the first, and the response count starts again. -/
def resetEvent (s : State) : State :=
  { cfg := State.reset.cfg
    enc := { State.reset.enc with eout := s.enc.eout }
    dec := { State.reset.dec with dout := s.dec.dout }
    rsp := s.rsp
    host := { pending := s.host.pending, cmdIndex := 0, rspBase := s.rsp.length } }

end Sys2Proof.Machine
end

