-- ==== Sys2Proof/Machine/CfgFamily.lean ====
section
/-! DEFINITION. The configuration command family: `CFG.CHID` (spec rules R100 to R102). -/

namespace Sys2Proof.Machine

/-- The pseudocode of `CFG.CHID imm16` (R100). -/
def cfgChid (imm16 : BitVec 16) (s : State) : State :=
  if s.enc.ebusy then raise .illegalCommand s
  else match chidOperand imm16 with
    | none => raise .configurationError (s.onCfg invalidateChid)
    | some v => respond .ok false (s.onCfg (loadChid v))

/-- `CFG.CHID imm16` (R100). -/
def execCfgChid (imm16 : BitVec 16) (s : State) : Host.Outcome State Fault Refusal := .next (cfgChid imm16 s)

end Sys2Proof.Machine
end

