-- ==== Sys2Proof/Machine/Decoder.lean ====
section
/-! DEFINITION. The decoder command family: `DEC.START`, `DEC.PUT`, `DEC.EOC`, `DEC.END` (spec rules R140 to R159). -/

namespace Sys2Proof.Machine

/-- The pseudocode of `DEC.START` (R141). -/
def decStart (s : State) : State :=
  if s.dec.dbusy then raise .illegalCommand s
  else respond .ok false (s.onDec beginGroup)

/-- The pseudocode of `DEC.PUT imm8` (R142). -/
def decPut (p : Build) (imm8 : Byte) (s : State) : State :=
  if s.dec.dbusy = false then raise .illegalCommand s
  else respondGroup (s.onDec (takeContainerByte p imm8))

/-- The pseudocode of `DEC.EOC` (R143). -/
def decEoc (s : State) : State :=
  if s.dec.dbusy = false then raise .illegalCommand s
  else respondGroup (s.onDec checkRemainder)

/-- The state changes of an accepted `DEC.END` (R144). -/
def finishGroup (d : Dec) : Dec := endGroup (deliver (checkRemainder d))

/-- The pseudocode of `DEC.END` (R144). -/
def decEnd (s : State) : State :=
  if s.dec.dbusy = false then raise .illegalCommand s
  else respondGroup (s.onDec finishGroup)

/-- `DEC.START` (R141). -/
def execDecStart (s : State) : Host.Outcome State Fault Refusal := .next (decStart s)

/-- `DEC.PUT imm8` (R142). -/
def execDecPut (imm8 : Byte) (s : State) : Host.Outcome State Fault Refusal := .next (decPut Config.build imm8 s)

/-- `DEC.EOC` (R143). -/
def execDecEoc (s : State) : Host.Outcome State Fault Refusal := .next (decEoc s)

/-- `DEC.END` (R144). -/
def execDecEnd (s : State) : Host.Outcome State Fault Refusal := .next (decEnd s)

end Sys2Proof.Machine
end

