-- ==== Sys2Proof/Machine/Encoder.lean ====
section
/-! DEFINITION. The encoder command family: `ENC.START`, `ENC.PUT`, `ENC.END` (spec rules R110 to R124). The pseudocode
takes the build as an argument (R5 to R7); the commands run it with this machine's build. -/

namespace Sys2Proof.Machine

/-- The pseudocode of `ENC.START` (R120). -/
def encStart (s : State) : State :=
  if s.enc.ebusy then raise .illegalCommand s
  else if s.cfg.chidV = false then raise .configurationError s
  else respond .ok false (s.onEnc beginEncode)

/-- The state changes of an accepted `ENC.PUT` (R121). -/
def putInput (p : Build) (chid : ChannelId) (b : Byte) (e : Enc) : Enc := appendInput b (emitFullChunk p chid e)

/-- The pseudocode of `ENC.PUT imm8` (R121). -/
def encPut (p : Build) (imm8 : Byte) (s : State) : State :=
  if s.enc.ebusy = false then raise .illegalCommand s
  else respond .ok false (s.onEnc (putInput p s.cfg.chid imm8))

/-- The state changes of an accepted `ENC.END` (R122). -/
def finishEncode (p : Build) (chid : ChannelId) (e : Enc) : Enc := endEncode (flushRest (emitLastChunk p chid e))

/-- The pseudocode of `ENC.END` (R122). -/
def encEnd (p : Build) (s : State) : State :=
  if s.enc.ebusy = false then raise .illegalCommand s
  else respond .ok false (s.onEnc (finishEncode p s.cfg.chid))

/-- `ENC.START` (R120). -/
def execEncStart (s : State) : Host.Outcome State Fault Refusal := .next (encStart s)

/-- `ENC.PUT imm8` (R121). -/
def execEncPut (imm8 : Byte) (s : State) : Host.Outcome State Fault Refusal := .next (encPut Config.build imm8 s)

/-- `ENC.END` (R122). -/
def execEncEnd (s : State) : Host.Outcome State Fault Refusal := .next (encEnd Config.build s)

end Sys2Proof.Machine
end

