-- ==== Sys2Proof/Machine/Dispatch.lean ====
section
/-! DEFINITION. `exec`: one arm per command of the command set (spec rule R78). -/

namespace Sys2Proof.Machine

def exec (i : Instr) (s : State) : Host.Outcome State Fault Refusal :=
  match i with
  | .cfgChid imm16 => Sys2Proof.Machine.execCfgChid imm16 s
  | .encStart => Sys2Proof.Machine.execEncStart s
  | .encPut imm8 => Sys2Proof.Machine.execEncPut imm8 s
  | .encEnd => Sys2Proof.Machine.execEncEnd s
  | .decStart => Sys2Proof.Machine.execDecStart s
  | .decPut imm8 => Sys2Proof.Machine.execDecPut imm8 s
  | .decEoc => Sys2Proof.Machine.execDecEoc s
  | .decEnd => Sys2Proof.Machine.execDecEnd s

end Sys2Proof.Machine
end

