-- ==== Sys2Proof/Machine/Step.lean ====
section
/-! DEFINITION. One step: HOST's next step is taken from its list and TSPE does what it asks (spec rules R10, R22, R28, R80,
R190), and where a program's words are placed (log entry 3). -/

namespace Sys2Proof.Machine

/-- One step of the machine. A presented word is decoded first and by itself (R81, R176); a command executes whole (R15). -/
def step (s : State) : Host.Outcome State Fault Refusal :=
  match s.host.pending with
  | [] => .next (idle s)
  | .take ch :: rest => .next (takeRecord ch (dropEvent rest s))
  | .reset :: rest => .next (resetEvent (dropEvent rest s))
  | .command w :: rest =>
    match decode w with
    | .command i => exec i (takeCommand rest s)
    | .illegal _ => .next (illegalEncoding (takeCommand rest s))

/-- `s` with one more command word that HOST presents next (log entry 3): the very next step takes it. -/
def State.withFetchWord (s : State) (nbits w : Nat) : State :=
  { s with host := { s.host with pending := .command (tableWord nbits w) :: s.host.pending } }

end Sys2Proof.Machine
end

