-- ==== Sys2Proof/Machine/Assembler.lean ====
section
/-! DEFINITION. The assembler's reading of source text (spec rules R86, R87): characters to lines, lines to `AsmLine`, and a
source to the words HOST presents. Layout details the spec leaves open are log entry 8. -/

namespace Sys2Proof.Machine

/-- The spelling of a mnemonic (R78, R86). -/
def mnemonicText : Mnemonic → List Char
  | .cfgChid => ['C', 'F', 'G', '.', 'C', 'H', 'I', 'D']
  | .encStart => ['E', 'N', 'C', '.', 'S', 'T', 'A', 'R', 'T']
  | .encPut => ['E', 'N', 'C', '.', 'P', 'U', 'T']
  | .encEnd => ['E', 'N', 'C', '.', 'E', 'N', 'D']
  | .decStart => ['D', 'E', 'C', '.', 'S', 'T', 'A', 'R', 'T']
  | .decPut => ['D', 'E', 'C', '.', 'P', 'U', 'T']
  | .decEoc => ['D', 'E', 'C', '.', 'E', 'O', 'C']
  | .decEnd => ['D', 'E', 'C', '.', 'E', 'N', 'D']

/-- The spellings of the pseudo-instructions (R87). -/
def encDataText : List Char := ['E', 'N', 'C', '.', 'D', 'A', 'T', 'A']
def encFillText : List Char := ['E', 'N', 'C', '.', 'F', 'I', 'L', 'L']
def decDataText : List Char := ['D', 'E', 'C', '.', 'D', 'A', 'T', 'A']
def decFillText : List Char := ['D', 'E', 'C', '.', 'F', 'I', 'L', 'L']

/-- The eight mnemonics. -/
def allMnemonics : List Mnemonic :=
  [.cfgChid, .encStart, .encPut, .encEnd, .decStart, .decPut, .decEoc, .decEnd]

/-- The mnemonic a word of source spells, in upper case only (R86). -/
def readMnemonic (t : List Char) : Option Mnemonic := allMnemonics.find? (fun m => mnemonicText m == t)

/-- The value of a digit, if it is below the base. -/
def digitValue (base : Nat) (c : Char) : Option Nat :=
  let v :=
    if '0'.toNat ≤ c.toNat ∧ c.toNat ≤ '9'.toNat then c.toNat - '0'.toNat
    else if 'A'.toNat ≤ c.toNat ∧ c.toNat ≤ 'F'.toNat then c.toNat - 'A'.toNat + 10
    else if 'a'.toNat ≤ c.toNat ∧ c.toNat ≤ 'f'.toNat then c.toNat - 'a'.toNat + 10
    else base
  if v < base then some v else none

/-- A run of digits continuing the number `n`. -/
def readDigits (base : Nat) : Nat → List Char → Option Nat
  | n, [] => some n
  | n, c :: rest =>
    match digitValue base c with
    | none => none
    | some v => readDigits base (n * base + v) rest

/-- An operand: an unsigned number, decimal or hexadecimal with the prefix `0x` (R86). -/
def readNumber : List Char → Option Nat
  | [] => none
  | '0' :: 'x' :: [] => none
  | '0' :: 'x' :: digits => readDigits 16 0 digits
  | digits => readDigits 10 0 digits

/-- Cut a sequence at every `sep`; `n` separators give `n + 1` parts. -/
def splitAt (sep : Char) : List Char → List (List Char)
  | [] => [[]]
  | c :: rest =>
    if c = sep then [] :: splitAt sep rest
    else match splitAt sep rest with
      | [] => [[c]]
      | part :: parts => (c :: part) :: parts

/-- Drop the comment, from the first semicolon to the end of the line (R86). -/
def dropComment (line : List Char) : List Char := line.takeWhile (fun c => c != ';')

/-- Drop the spaces at both ends of a line (log entry 8). -/
def trimSpaces (line : List Char) : List Char :=
  ((line.dropWhile (fun c => c == ' ')).reverse.dropWhile (fun c => c == ' ')).reverse

/-- All the numbers of a list of parts, or nothing. -/
def readNumbers : List (List Char) → Option (List Nat)
  | [] => some []
  | t :: rest =>
    match readNumber t, readNumbers rest with
    | some n, some ns => some (n :: ns)
    | none, _ => none
    | some _, none => none

/-- `v, n` after `FILL`: two numbers, a comma after the first (R87). -/
def readFill : List (List Char) → Option (Nat × Nat)
  | [v, n] =>
    if v.getLast? = some ',' then
      match readNumber v.dropLast, readNumber n with
      | some a, some b => some (a, b)
      | none, _ => none
      | some _, none => none
    else none
  | [] => none
  | [_] => none
  | _ :: _ :: _ :: _ => none

/-- A line cut at its single spaces: the mnemonic and its operands (R86, R87). -/
def readParts : List (List Char) → Option AsmLine
  | [] => none
  | name :: args =>
    if name = encDataText then (readNumbers args).map .encData
    else if name = decDataText then (readNumbers args).map .decData
    else if name = encFillText then (readFill args).map (fun x => .encFill x.1 x.2)
    else if name = decFillText then (readFill args).map (fun x => .decFill x.1 x.2)
    else
      match readMnemonic name, args with
      | some m, [] => some (.command m none)
      | some m, [t] => (readNumber t).map (fun n => .command m (some n))
      | some _, _ :: _ :: _ => none
      | none, _ => none

/-- The words of one line of source: none for a blank line (R86), a refusal for what is no line. -/
def assembleLine (line : List Char) : Option (List Word) :=
  let t := trimSpaces (dropComment line)
  if t = [] then some []
  else match readParts (splitAt ' ' t) with
    | none => none
    | some l => l.assemble

/-- The words of a list of lines, in order; one refused line refuses the source. -/
def assembleLines : List (List Char) → Option (List Word)
  | [] => some []
  | line :: rest =>
    match assembleLine line, assembleLines rest with
    | some ws, some more => some (ws ++ more)
    | none, _ => none
    | some _, none => none

/-- The assembler: source text, one command a line (R86). -/
def assembleSource (source : List Char) : Option (List Word) := assembleLines (splitAt '\n' source)

end Sys2Proof.Machine
end

