-- ==== Sys2Proof/Machine/Function.lean ====
section
/-! DEFINITION. The function level (spec rule R9): `ENCODE` (R111, R112, R124, R128) and `DECODE` (R160), over whole inputs
and whole groups. The commands do not use them; that the two levels agree is a statement of its own (R129, R161). -/

namespace Sys2Proof.Machine

/-- `ceil(a / b)` (R11). -/
def ceilDiv (a b : Nat) : Nat := (a + b - 1) / b

/-- `n = ceil(N / CHUNK_SIZE)` (R111). -/
def chunkCount (p : Build) (input : Bytes) : Nat := ceilDiv input.length p.chunkSize

/-- `chunk_i` (R111, R128). -/
def chunkAt (p : Build) (input : Bytes) (i : Nat) : Bytes :=
  slice input (i * p.chunkSize) (min ((i + 1) * p.chunkSize) input.length)

/-- `st_i` of `n` chunks (R112, R128): the first test wins. -/
def statusAt (n i : Nat) : Status := if i = 0 then .first else if i = n - 1 then .last else .middle

/-- `pkt_i` (R128). -/
def packetAt (p : Build) (input : Bytes) (chid : ChannelId) (i : Nat) : Bytes :=
  buildPacket p chid (BitVec.ofNat 4 i) (statusAt (chunkCount p input) i) (chunkAt p input i)

/-- `pkt_0` to `pkt_(n−1)` (R128). -/
def packetsOf (p : Build) (input : Bytes) (chid : ChannelId) : List Bytes :=
  (List.range (chunkCount p input)).map (packetAt p input chid)

/-- The grouper on a whole packet sequence (R124): runs of `MAX_PKTS` packets, the last possibly shorter. -/
def groupPackets (p : Build) (pkts : List Bytes) : List (List Bytes) :=
  (List.range (ceilDiv pkts.length p.maxPkts)).map
    (fun j => slice pkts (j * p.maxPkts) (min ((j + 1) * p.maxPkts) pkts.length))

/-- `ENCODE(b, chid)` (R128): the list of containers. -/
def encodeInput (p : Build) (input : Bytes) (chid : ChannelId) : List Bytes :=
  (groupPackets p (packetsOf p input chid)).map List.flatten

/-- What `DECODE(cs)` returns (R160). -/
inductive GroupResult where
  | framingError
  | ok (out : Bytes) (ccw : Bool)
  deriving DecidableEq, Repr

/-- A container cut every `PACKET_SIZE` bytes (R160). -/
def cutPackets (p : Build) (c : Bytes) : List Bytes :=
  (List.range (c.length / p.packetSize)).map (fun k => slice c (k * p.packetSize) ((k + 1) * p.packetSize))

/-- The loop over the packets in `DECODE` (R160): `none` when a head is unrecognized. -/
def foldPackets (p : Build) : Bytes → List Bytes → Option Bytes
  | acc, [] => some acc
  | acc, P :: rest =>
    match readHead p P with
    | none => none
    | some (st, data) => foldPackets p (foldData st data acc) rest

/-- `ccw` of `DECODE` (R160): does some packet `i` carry a counter other than `i mod 16`. -/
def counterWarning (pkts : List Bytes) : Bool :=
  pkts.zipIdx.any (fun x => decide (readCounter x.1 ≠ BitVec.ofNat 4 x.2))

/-- Is a container's length a whole number of packets (R56, R160)? -/
def wholePackets (p : Build) (c : Bytes) : Bool := c.length % p.packetSize == 0

/-- `DECODE(cs)` (R160). -/
def decodeGroup (p : Build) (cs : List Bytes) : GroupResult :=
  if cs.all (wholePackets p) then
    match foldPackets p [] (cs.flatMap (cutPackets p)) with
    | none => .framingError
    | some out => .ok out (counterWarning (cs.flatMap (cutPackets p)))
  else .framingError

end Sys2Proof.Machine
end

