-- ==== Sys2Proof/Machine/HostSide.lean ====
section
/-! DEFINITION. HOST's side of the ports: the command sequences of one encode and one group decode (spec rules R78, R129,
R161, R193), and how HOST reads containers and buffers back from a channel (R83, R84, R197). -/

namespace Sys2Proof.Machine

/-- The command sequence of one encode (R129). -/
def encodeCommands (chid : ChannelId) (input : Bytes) : List Instr :=
  [.cfgChid (chid.setWidth 16), .encStart] ++ input.map .encPut ++ [.encEnd]

/-- The commands that present one container: its bytes, then its end (R161). -/
def containerCommands (c : Bytes) : List Instr := c.map .decPut ++ [.decEoc]

/-- The command sequence of one group decode (R161). -/
def decodeCommands (cs : List Bytes) : List Instr := [.decStart] ++ cs.flatMap containerCommands ++ [.decEnd]

/-- Is a command one of the family `DEC.*` (R34)? -/
def isDecCommand : Instr → Bool
  | .cfgChid _ => false
  | .encStart => false
  | .encPut _ => false
  | .encEnd => false
  | .decStart => true
  | .decPut _ => true
  | .decEoc => true
  | .decEnd => true

/-- HOST presents a run of commands (R28, R78). -/
def presentCommands (is : List Instr) : List HostEvent := is.map (fun i => .command (encode i))

/-- `s` when HOST is about to present these commands, and after them whatever it was about to do. -/
def State.presenting (s : State) (is : List Instr) : State :=
  { s with host := { s.host with pending := presentCommands is ++ s.host.pending } }

/-- `n` steps of the machine, stopping at the first fault or refusal: a run of HOST's next `n` steps (R202). -/
def runSteps : Nat → State → Host.Outcome State Fault Refusal
  | 0, s => .next s
  | n + 1, s =>
    match step s with
    | .next t => runSteps n t
    | .fault r => .fault r
    | .refused r => .refused r

/-- Is a record the closing mark (`MARK = 1`, R83)? -/
def isMark (r : OutRecord) : Bool := r.getLsbD 8

/-- `DATA` of a record (R83). -/
def recordData (r : OutRecord) : Byte := r.extractLsb' 0 8

/-- HOST's reading of a channel's records: the byte runs closed by a mark, in order, and the bytes after the last mark.
`open'` holds the bytes read since the last mark. -/
def readRuns : Bytes → List OutRecord → List Bytes × Bytes
  | open', [] => ([], open')
  | open', r :: rest =>
    if isMark r then
      let k := readRuns [] rest
      (open' :: k.1, k.2)
    else readRuns (open' ++ [recordData r]) rest

end Sys2Proof.Machine
end

