-- ==== Sys2Proof/Safety.lean ====
section
/-! DEFINITION. What the claims call a good state: the invariants of rule R31, the laws of packets, containers and channels
(rules R82 to R84, R125), and the complete lists of error causes (rules R171 to R173). -/

namespace Sys2Proof.Machine

/-- The invariants of R31, (a) to (i), for a build `p`. In (i) the responses counted are those since the last reset
(log entry 10). -/
structure Inv (p : Build) (s : State) : Prop where
  /-- (a) -/
  cbufFits : s.enc.cbuf.length ≤ p.chunkSize
  /-- (b) -/
  gbufFits : s.enc.gbuf.length ≤ p.maxPkts - 1
  /-- (b) -/
  gbufPackets : ∀ P ∈ s.enc.gbuf, P.length = p.packetSize
  /-- (c) -/
  pbufFits : s.dec.pbuf.length ≤ p.packetSize - 1
  /-- (d) -/
  idleEnc : s.enc.ebusy = false → s.enc.cbuf = [] ∧ s.enc.gbuf = []
  /-- (e) -/
  idleDec : s.dec.dbusy = false → s.dec.pbuf = [] ∧ s.dec.acc = []
  /-- (f) -/
  failedDec : s.dec.dfail = true → s.dec.pbuf = [] ∧ s.dec.acc = []
  /-- (g) -/
  busyHasChid : s.enc.ebusy = true → s.cfg.chidV = true
  /-- (h) -/
  firstIsFresh : s.enc.ebusy = true → s.enc.efirst = true → s.enc.cc = 0 ∧ s.enc.gbuf = []
  /-- (i) -/
  answeredAll : s.rsp.length = s.host.rspBase + s.host.cmdIndex

/-- What R125 says of every packet ENC builds. -/
structure PacketLaw (p : Build) (P : Bytes) : Prop where
  size : P.length = p.packetSize
  sync : byteAt P 0 = 0x47
  flags : (byteAt P 1).extractLsb' 5 3 = 0b010
  control : (byteAt P 3).extractLsb' 4 4 = 0b0001
  status : (byteAt P 4).toNat ≤ 2
  reserved : byteAt P 5 = 0
  lenPositive : 1 ≤ readLen P
  lenFits : readLen P ≤ p.chunkSize
  stuffing : ∀ i, 8 + readLen P ≤ i → i < p.packetSize → byteAt P i = 0xFF

/-- What R76, R83 and R125 say of every container on `EOUT`: 1 to `MAX_PKTS` whole packets, nothing between them. -/
def ContainerLaw (p : Build) (c : Bytes) : Prop :=
  ∃ pkts : List Bytes, 1 ≤ pkts.length ∧ pkts.length ≤ p.maxPkts ∧ (∀ P ∈ pkts, PacketLaw p P) ∧ c = pkts.flatten

/-- The encoder's output is well framed: every packet waiting in `GBUF` is a packet of R125, and `EOUT` is a sequence of
containers, each closed by its `EOC` (R83). -/
def EoutFramed (p : Build) (s : State) : Prop :=
  (∀ P ∈ s.enc.gbuf, PacketLaw p P) ∧
  ∃ cs : List Bytes, (∀ c ∈ cs, ContainerLaw p c) ∧ s.enc.eout = cs.flatMap closedRecords

/-- `DOUT` is a sequence of output buffers, each closed by its `EOB` (R84). -/
def DoutFramed (s : State) : Prop := ∃ outs : List Bytes, s.dec.dout = outs.flatMap closedRecords

/-- The values TSPE can emit on `RSP` (R82). -/
def legalResponses : List RspRecord := [0x00, 0x01, 0x02, 0x03, 0x04, 0x06]

/-- Every response so far is one of the values of R82. -/
def ResponsesLegal (s : State) : Prop := ∀ r ∈ s.rsp, r ∈ legalResponses

/-- The causes of `ConfigurationError`, complete (R171). -/
def configurationCause (w : Word) (s : State) : Prop :=
  (∃ imm16, decode w = .command (.cfgChid imm16) ∧ 8191 < imm16.toNat ∧ s.enc.ebusy = false) ∨
  (decode w = .command .encStart ∧ s.cfg.chidV = false ∧ s.enc.ebusy = false)

/-- A byte that completes a packet whose head is unrecognized (R172 b, c). -/
def badPacketCompleted (b : Byte) (s : State) : Prop :=
  s.dec.pbuf.length + 1 = 188 ∧
  (2 < (byteAt (s.dec.pbuf ++ [b]) 4).toNat ∨
    180 < (byteAt (s.dec.pbuf ++ [b]) 6).toNat * 256 + (byteAt (s.dec.pbuf ++ [b]) 7).toNat)

/-- The causes of `FramingError`, complete (R172): (a), (b) and (c), (d). -/
def framingCause (w : Word) (s : State) : Prop :=
  s.dec.dbusy = true ∧
  (((decode w = .command .decEoc ∨ decode w = .command .decEnd) ∧ s.dec.pbuf ≠ []) ∨
   (∃ b, decode w = .command (.decPut b) ∧ badPacketCompleted b s) ∨
   (((∃ b, decode w = .command (.decPut b)) ∨ decode w = .command .decEoc ∨ decode w = .command .decEnd) ∧
     s.dec.dfail = true))

/-- The sequence violations (R173 b). -/
def sequenceViolation (i : Instr) (s : State) : Bool :=
  match i with
  | .cfgChid _ => s.enc.ebusy
  | .encStart => s.enc.ebusy
  | .encPut _ => !s.enc.ebusy
  | .encEnd => !s.enc.ebusy
  | .decStart => s.dec.dbusy
  | .decPut _ => !s.dec.dbusy
  | .decEoc => !s.dec.dbusy
  | .decEnd => !s.dec.dbusy

/-- The causes of `IllegalCommand`, complete (R173): an illegal encoding or a sequence violation. -/
def illegalCause (w : Word) (s : State) : Prop :=
  (∃ why, decode w = .illegal why) ∨ (∃ i, decode w = .command i ∧ sequenceViolation i s = true)

/-- HOST's next step is to present a word of command `i`. -/
def State.presents (s : State) (i : Instr) : Prop :=
  ∃ w rest, s.host.pending = .command w :: rest ∧ decode w = .command i

/-- HOST's next step is the `RESET` event. -/
def State.resets (s : State) : Prop := ∃ rest, s.host.pending = .reset :: rest

/-- The responses to the commands that a test picks out of a run: `rs` answers `is` one for one (R27). -/
def responsesTo (pick : Instr → Bool) (is : List Instr) (rs : List RspRecord) : List RspRecord :=
  ((is.zip rs).filter (fun x => pick x.1)).map (fun x => x.2)

/-- The continuity warning computed the other way R165 allows: the first counter against 0, each next counter against the
one before it plus one. -/
def predecessorWarning : Count4 → List Bytes → Bool
  | _, [] => false
  | expected, P :: rest => decide (readCounter P ≠ expected) || predecessorWarning (nextCount (readCounter P)) rest

end Sys2Proof.Machine
end

