-- ==== Sys2Proof/Certificates/Slice0/Obligations.lean ====
section
/-! DEFINITION. The statements about TSPE for the provers: command encodings, the rule of each command, the machine's
invariants, what the units cannot do to each other, the error causes, the data formats, and the agreement of the command
level with the functions `ENCODE` and `DECODE`. -/

open Sys2Proof Sys2Proof.Machine

/-! ## Encoding -/

/-- R77 to R79: decoding the word of a command gives the command back, with every operand at every value, and a word that
decodes to a command is that command's word: no second word means the same thing. -/
def Obligations.DecodeEncodeAgree : Prop :=
  (∀ i : Instr, decode (encode i) = .command i) ∧
  (∀ (w : Word) (i : Instr), decode w = .command i → encode i = w)

/-- R78: a word is the command of the row for which `(W AND mask) = match`, at most one row matches, and a word that matches
no row is illegal. The table is the spec's, written out as data. The operand of a command is the field of R79, whole. -/
def Obligations.DecodeFollowsCommandTable : Prop :=
  ∀ w : Word,
    (∀ r ∈ opcodeTable, r.accepts w = true → ∃ i, decode w = .command i ∧ i.mnemonic = r.mnemonic) ∧
    (∀ r ∈ opcodeTable, ∀ r' ∈ opcodeTable, r.accepts w = true → r'.accepts w = true → r = r') ∧
    ((∀ r ∈ opcodeTable, r.accepts w = false) → ∃ why, decode w = .illegal why) ∧
    (∀ i, decode w = .command i → ∃ r ∈ opcodeTable, r.accepts w = true ∧ r.mnemonic = i.mnemonic) ∧
    (∀ imm16, decode w = .command (.cfgChid imm16) → imm16.toNat = w.toNat % 2 ^ 16) ∧
    (∀ imm8, decode w = .command (.encPut imm8) → imm8.toNat = w.toNat % 2 ^ 8) ∧
    (∀ imm8, decode w = .command (.decPut imm8) → imm8.toNat = w.toNat % 2 ^ 8)

/-- R80: the illegal words are those of the cases (a) to (d), the fields written out as numbers; an illegal word is answered
`IllegalCommand` and changes no state of TSPE; the all-zero and the all-ones word are illegal. -/
def Obligations.IllegalEncodingsAreTheFourCases : Prop :=
  (∀ w : Word, (∃ why, decode w = .illegal why) ↔
    (w.toNat / 2 ^ 24 ∉ [0x01, 0x10, 0x11, 0x12, 0x20, 0x21, 0x22, 0x23] ∨
     w.toNat / 2 ^ 16 % 256 ≠ 0 ∨
     (w.toNat / 2 ^ 24 ∈ [0x10, 0x12, 0x20, 0x22, 0x23] ∧ w.toNat % 2 ^ 16 ≠ 0) ∨
     (w.toNat / 2 ^ 24 ∈ [0x11, 0x21] ∧ w.toNat / 2 ^ 8 % 256 ≠ 0))) ∧
  (∀ (s : State) (w : Word) (rest : List HostEvent) (why : IllegalEncoding),
    s.host.pending = .command w :: rest → decode w = .illegal why →
    step s = .next { s with
      rsp := s.rsp ++ [0x03],
      host := { s.host with pending := rest, cmdIndex := s.host.cmdIndex + 1 } }) ∧
  (∃ why, decode 0x00000000 = .illegal why) ∧ (∃ why, decode 0xFFFFFFFF = .illegal why)

/-- The command words of the worked examples decode to the commands they stand for. -/
def Obligations.WorkedExampleWordsDecode : Prop :=
  decode 0x01000030 = .command (.cfgChid 0x30) ∧ decode 0x10000000 = .command .encStart ∧
  decode 0x110000AB = .command (.encPut 0xAB) ∧ decode 0x12000000 = .command .encEnd ∧
  decode 0x20000000 = .command .decStart ∧ decode 0x21000047 = .command (.decPut 0x47) ∧
  decode 0x22000000 = .command .decEoc ∧ decode 0x23000000 = .command .decEnd

/-- R86, R87: a line the assembler accepts gives the words of the commands it stands for; a command's word is
`OP × 2^24 + operand`; the pseudo-instructions expand to runs of `PUT`; any other line is
refused. That a `FILL` of a number above 255 is refused also for 0 copies is the model's choice (log entry 13). -/
def Obligations.AssemblerGivesTheWordsOfTheLine : Prop :=
  (∀ l : AsmLine, l.wf = true →
    ∃ ws, l.assemble = some ws ∧ ws.map decode = l.expand.map Decoded.command) ∧
  (∀ l : AsmLine, l.wf = false → l.assemble = none) ∧
  (∀ r ∈ opcodeTable, ∀ operand : Option Nat, (AsmLine.command r.mnemonic operand).wf = true →
    (AsmLine.command r.mnemonic operand).assemble = some [r.matchBits + BitVec.ofNat 32 (operand.getD 0)]) ∧
  (∀ bs : List Nat, (AsmLine.encData bs).expand = bs.map (fun b => Instr.encPut (BitVec.ofNat 8 b))) ∧
  (∀ bs : List Nat, (AsmLine.decData bs).expand = bs.map (fun b => Instr.decPut (BitVec.ofNat 8 b))) ∧
  (∀ v n : Nat, (AsmLine.encFill v n).expand = List.replicate n (Instr.encPut (BitVec.ofNat 8 v))) ∧
  (∀ v n : Nat, (AsmLine.decFill v n).expand = List.replicate n (Instr.decPut (BitVec.ofNat 8 v)))

/-! ## Steps -/

/-- R22, R28, R81: when HOST presents a word that decodes to a command, the step is `exec` of that command, the word gone
from HOST's list and the index of the next command advanced by exactly 1. -/
def Obligations.StepRunsTheDecodedCommand : Prop :=
  ∀ (s : State) (w : Word) (rest : List HostEvent) (i : Instr),
    s.host.pending = .command w :: rest → decode w = .command i →
    step s = exec i { s with host := { s.host with pending := rest, cmdIndex := s.host.cmdIndex + 1 } }

/-- A word placed by `withFetchWord` is the one the very next step runs (log entry 3: HOST presents it next). -/
def Obligations.PlacedWordRunsNext : Prop :=
  ∀ (s : State) (i : Instr),
    decodeTableWord 32 (encode i).toNat = some i ∧
    step (s.withFetchWord 32 (encode i).toNat) = exec i { s with host := { s.host with cmdIndex := s.host.cmdIndex + 1 } }

/-- R184 (H6), R57: with nothing presented TSPE keeps all state; a record HOST takes changes no state of TSPE. -/
def Obligations.IdleAndTakenRecordsChangeNothing : Prop :=
  ∀ s : State,
    (s.host.pending = [] → step s = .next s) ∧
    (∀ ch rest, s.host.pending = .take ch :: rest → step s = .next { s with host := { s.host with pending := rest } })

/-- R180: no error makes TSPE stop taking commands; every step of every state answers a next state. -/
def Obligations.EveryStepAnswersNext : Prop := ∀ s : State, ∃ t, step s = .next t

/-- R22, R27: every command, whatever its response, takes the index of the next command forward by exactly 1 and appends
exactly one record to `RSP`; HOST's other steps append none; nothing is ever removed from a channel. -/
def Obligations.EveryCommandIsAnsweredOnce : Prop :=
  ∀ s t : State, step s = .next t →
    (∀ w rest, s.host.pending = .command w :: rest →
      (∃ r, t.rsp = s.rsp ++ [r]) ∧ t.host.cmdIndex = s.host.cmdIndex + 1 ∧ t.host.pending = rest ∧
      t.host.rspBase = s.host.rspBase) ∧
    ((∀ w rest, s.host.pending ≠ .command w :: rest) → t.rsp = s.rsp) ∧
    (∃ es, t.enc.eout = s.enc.eout ++ es) ∧ (∃ ds, t.dec.dout = s.dec.dout ++ ds)

/-! ## The commands -/

/-- R100: `CFG.CHID`, its encoding and its three cases, with everything else unchanged. -/
def Obligations.CfgChidFollowsItsRule : Prop :=
  (∀ imm16 : BitVec 16, decode (0x01000000 ||| imm16.setWidth 32) = .command (.cfgChid imm16)) ∧
  ∀ (imm16 : BitVec 16) (s : State),
    (s.enc.ebusy = true → exec (.cfgChid imm16) s = .next { s with rsp := s.rsp ++ [0x03] }) ∧
    (s.enc.ebusy = false → 8191 < imm16.toNat →
      exec (.cfgChid imm16) s = .next { s with
        cfg := { s.cfg with chidV := false }, rsp := s.rsp ++ [0x01] }) ∧
    (s.enc.ebusy = false → imm16.toNat ≤ 8191 →
      exec (.cfgChid imm16) s = .next { s with
        cfg := { chid := BitVec.ofNat 13 imm16.toNat, chidV := true }, rsp := s.rsp ++ [0x00] })

/-- R120: `ENC.START`, its encoding and its three cases, with everything else unchanged. -/
def Obligations.EncStartFollowsItsRule : Prop :=
  decode 0x10000000 = .command .encStart ∧
  ∀ s : State,
    (s.enc.ebusy = true → exec .encStart s = .next { s with rsp := s.rsp ++ [0x03] }) ∧
    (s.enc.ebusy = false → s.cfg.chidV = false → exec .encStart s = .next { s with rsp := s.rsp ++ [0x01] }) ∧
    (s.enc.ebusy = false → s.cfg.chidV = true →
      exec .encStart s = .next { s with
        enc := { ebusy := true, cc := 0, efirst := true, cbuf := [], gbuf := [], eout := s.enc.eout },
        rsp := s.rsp ++ [0x00] })

/-- R121, with R118 and R119 for the packet it may build: `ENC.PUT`, its encoding and its cases, with everything else
unchanged. A chunk is complete at 180 bytes; the packet built is not the last; a container leaves when it is full. -/
def Obligations.EncPutFollowsItsRule : Prop :=
  (∀ imm8 : Byte, decode (0x11000000 ||| imm8.setWidth 32) = .command (.encPut imm8)) ∧
  ∀ (imm8 : Byte) (s : State),
    (s.enc.ebusy = false → exec (.encPut imm8) s = .next { s with rsp := s.rsp ++ [0x03] }) ∧
    (s.enc.ebusy = true → s.enc.cbuf.length ≠ 180 →
      exec (.encPut imm8) s = .next { s with
        enc := { s.enc with cbuf := s.enc.cbuf ++ [imm8] }, rsp := s.rsp ++ [0x00] }) ∧
    (s.enc.ebusy = true → s.enc.cbuf.length = 180 →
      ∀ pkts : List Bytes,
        pkts = s.enc.gbuf ++
          [buildPacket Config.build s.cfg.chid s.enc.cc (if s.enc.efirst then .first else .middle) s.enc.cbuf] →
        (pkts.length = Config.build.containerSizeCap / 188 →
          exec (.encPut imm8) s = .next { s with
            enc := { ebusy := true, cc := s.enc.cc + 1, efirst := false, cbuf := [imm8], gbuf := [],
                     eout := s.enc.eout ++ closedRecords pkts.flatten },
            rsp := s.rsp ++ [0x00] }) ∧
        (pkts.length ≠ Config.build.containerSizeCap / 188 →
          exec (.encPut imm8) s = .next { s with
            enc := { ebusy := true, cc := s.enc.cc + 1, efirst := false, cbuf := [imm8], gbuf := pkts,
                     eout := s.enc.eout },
            rsp := s.rsp ++ [0x00] }))

/-- R122, with R118 and R119: `ENC.END`, its encoding and its cases, with everything else unchanged. On `EOUT` appears
nothing, or exactly one container with its `EOC`, whether the last packet fills the container or not. -/
def Obligations.EncEndFollowsItsRule : Prop :=
  decode 0x12000000 = .command .encEnd ∧
  ∀ s : State,
    (s.enc.ebusy = false → exec .encEnd s = .next { s with rsp := s.rsp ++ [0x03] }) ∧
    (s.enc.ebusy = true → s.enc.cbuf = [] → s.enc.gbuf = [] →
      exec .encEnd s = .next { s with enc := { s.enc with ebusy := false }, rsp := s.rsp ++ [0x00] }) ∧
    (s.enc.ebusy = true → s.enc.cbuf = [] → s.enc.gbuf ≠ [] →
      exec .encEnd s = .next { s with
        enc := { s.enc with ebusy := false, gbuf := [], eout := s.enc.eout ++ closedRecords s.enc.gbuf.flatten },
        rsp := s.rsp ++ [0x00] }) ∧
    (s.enc.ebusy = true → s.enc.cbuf ≠ [] →
      exec .encEnd s = .next { s with
        enc := { ebusy := false, cc := s.enc.cc + 1, efirst := false, cbuf := [], gbuf := [],
                 eout := s.enc.eout ++ closedRecords (s.enc.gbuf ++
                   [buildPacket Config.build s.cfg.chid s.enc.cc (if s.enc.efirst then .first else .last)
                     s.enc.cbuf]).flatten },
        rsp := s.rsp ++ [0x00] })

/-- R141: `DEC.START`, its encoding and its two cases, with everything else unchanged. -/
def Obligations.DecStartFollowsItsRule : Prop :=
  decode 0x20000000 = .command .decStart ∧
  ∀ s : State,
    (s.dec.dbusy = true → exec .decStart s = .next { s with rsp := s.rsp ++ [0x03] }) ∧
    (s.dec.dbusy = false →
      exec .decStart s = .next { s with
        dec := { dbusy := true, dfail := false, dccw := false, dcc := 0, pbuf := [], acc := [], dout := s.dec.dout },
        rsp := s.rsp ++ [0x00] })

/-- R142, with R151 to R157 for the packet it may fold: `DEC.PUT`, its encoding and its cases, with everything else
unchanged. `P` is the packet the byte completes and `w` the warning after it. -/
def Obligations.DecPutFollowsItsRule : Prop :=
  (∀ imm8 : Byte, decode (0x21000000 ||| imm8.setWidth 32) = .command (.decPut imm8)) ∧
  ∀ (imm8 : Byte) (s : State),
    (s.dec.dbusy = false → exec (.decPut imm8) s = .next { s with rsp := s.rsp ++ [0x03] }) ∧
    (s.dec.dbusy = true → s.dec.dfail = true →
      exec (.decPut imm8) s = .next { s with rsp := s.rsp ++ [if s.dec.dccw then 0x06 else 0x02] }) ∧
    (s.dec.dbusy = true → s.dec.dfail = false → s.dec.pbuf.length + 1 ≠ 188 →
      exec (.decPut imm8) s = .next { s with
        dec := { s.dec with pbuf := s.dec.pbuf ++ [imm8] },
        rsp := s.rsp ++ [if s.dec.dccw then 0x04 else 0x00] }) ∧
    (s.dec.dbusy = true → s.dec.dfail = false → s.dec.pbuf.length + 1 = 188 →
      ∀ (P : Bytes) (len : Nat) (w : Bool),
        P = s.dec.pbuf ++ [imm8] →
        len = (byteAt P 6).toNat * 256 + (byteAt P 7).toNat →
        w = (s.dec.dccw || decide ((byteAt P 3).toNat % 16 ≠ s.dec.dcc.toNat)) →
        (2 < (byteAt P 4).toNat ∨ 180 < len →
          exec (.decPut imm8) s = .next { s with
            dec := { s.dec with dfail := true, dccw := w, dcc := s.dec.dcc + 1, pbuf := [], acc := [] },
            rsp := s.rsp ++ [if w then 0x06 else 0x02] }) ∧
        ((byteAt P 4).toNat ≤ 2 → len ≤ 180 →
          exec (.decPut imm8) s = .next { s with
            dec := { s.dec with
              dccw := w, dcc := s.dec.dcc + 1, pbuf := [],
              acc := if byteAt P 4 = 0 then (P.drop 8).take len else s.dec.acc ++ (P.drop 8).take len },
            rsp := s.rsp ++ [if w then 0x04 else 0x00] }))

/-- R143, with R156: `DEC.EOC`, its encoding and its cases, with everything else unchanged. -/
def Obligations.DecEocFollowsItsRule : Prop :=
  decode 0x22000000 = .command .decEoc ∧
  ∀ s : State,
    (s.dec.dbusy = false → exec .decEoc s = .next { s with rsp := s.rsp ++ [0x03] }) ∧
    (s.dec.dbusy = true → s.dec.dfail = true →
      exec .decEoc s = .next { s with rsp := s.rsp ++ [if s.dec.dccw then 0x06 else 0x02] }) ∧
    (s.dec.dbusy = true → s.dec.dfail = false → s.dec.pbuf = [] →
      exec .decEoc s = .next { s with rsp := s.rsp ++ [if s.dec.dccw then 0x04 else 0x00] }) ∧
    (s.dec.dbusy = true → s.dec.dfail = false → s.dec.pbuf ≠ [] →
      exec .decEoc s = .next { s with
        dec := { s.dec with dfail := true, acc := [], pbuf := [] },
        rsp := s.rsp ++ [if s.dec.dccw then 0x06 else 0x02] })

/-- R144, with R156: `DEC.END`, its encoding and its cases, with everything else unchanged. A failed group emits nothing on
`DOUT`, not even `EOB`. -/
def Obligations.DecEndFollowsItsRule : Prop :=
  decode 0x23000000 = .command .decEnd ∧
  ∀ s : State,
    (s.dec.dbusy = false → exec .decEnd s = .next { s with rsp := s.rsp ++ [0x03] }) ∧
    (s.dec.dbusy = true → s.dec.dfail = false → s.dec.pbuf = [] →
      exec .decEnd s = .next { s with
        dec := { s.dec with
          dbusy := false, acc := [], pbuf := [],
          dout := s.dec.dout ++ s.dec.acc.map (fun x => BitVec.ofNat 9 x.toNat) ++ [0x100] },
        rsp := s.rsp ++ [if s.dec.dccw then 0x04 else 0x00] }) ∧
    (s.dec.dbusy = true → s.dec.dfail = true ∨ s.dec.pbuf ≠ [] →
      exec .decEnd s = .next { s with
        dec := { s.dec with dbusy := false, dfail := true, acc := [], pbuf := [] },
        rsp := s.rsp ++ [if s.dec.dccw then 0x06 else 0x02] })

/-! ## The procedures -/

/-- R118: `EmitPacket(last)` for every build, called as the rule says. -/
def Obligations.EmitPacketFollowsItsRule : Prop :=
  ∀ (p : Build) (chid : ChannelId) (last : Bool) (e : Enc) (st : Status) (pkts : List Bytes),
    e.ebusy = true → 1 ≤ e.cbuf.length → e.cbuf.length ≤ p.chunkSize →
    ((e.efirst = true ∧ st = .first) ∨ (e.efirst = false ∧ last = true ∧ st = .last) ∨
      (e.efirst = false ∧ last = false ∧ st = .middle)) →
    pkts = e.gbuf ++ [buildPacket p chid e.cc st e.cbuf] →
    emitPacket p chid last e =
      (if pkts.length = p.maxPkts then
        flushContainer { e with gbuf := pkts, cbuf := [], cc := BitVec.ofNat 4 (e.cc.toNat + 1), efirst := false }
      else { e with gbuf := pkts, cbuf := [], cc := BitVec.ofNat 4 (e.cc.toNat + 1), efirst := false })

/-- R119: `FlushContainer()` emits each byte of each packet in order as a data record, then `EOC`, and empties `GBUF`; one
container of `len(GBUF) × PACKET_SIZE` bytes; nothing else changes. -/
def Obligations.FlushContainerFollowsItsRule : Prop :=
  ∀ (p : Build) (e : Enc),
    1 ≤ e.gbuf.length → e.gbuf.length ≤ p.maxPkts → (∀ P ∈ e.gbuf, P.length = p.packetSize) →
    flushContainer e = { e with
      eout := e.eout ++ e.gbuf.flatMap (fun P => P.map (fun x => BitVec.ofNat 9 x.toNat)) ++ [0x100],
      gbuf := [] } ∧
    (flushContainer e).eout.length = e.eout.length + e.gbuf.length * p.packetSize + 1

/-- R85, R158 (and U12 to U14): DEC looks at nothing of a packet but the counter, `STATUS`, `LEN` and the first `LEN` data
bytes; two packets that agree on these are folded alike. -/
def Obligations.FoldIgnoresEverythingElse : Prop :=
  ∀ (p : Build) (P Q : Bytes) (d : Dec),
    p.wf = true → P.length = p.packetSize → Q.length = p.packetSize →
    (byteAt P 3).toNat % 16 = (byteAt Q 3).toNat % 16 →
    byteAt P 4 = byteAt Q 4 → byteAt P 6 = byteAt Q 6 → byteAt P 7 = byteAt Q 7 →
    (∀ i, 8 ≤ i → i < 8 + ((byteAt P 6).toNat * 256 + (byteAt P 7).toNat) → byteAt P i = byteAt Q i) →
    foldPacket p P d = foldPacket p Q d

/-! ## Errors and responses -/

/-- R82: the response record. `CODE` is bits 1:0, `CCW` is `DCCW` after a `DEC.PUT`, `DEC.EOC` or `DEC.END` whose `CODE` is 0
or 2 and 0 otherwise, bits 7:3 are 0, and only the six values of the rule are emitted, also for an illegal word. -/
def Obligations.ResponseRecordFollowsItsRule : Prop :=
  ∀ (s t : State) (w : Word) (rest : List HostEvent),
    s.host.pending = .command w :: rest → step s = .next t →
    ∃ r : RspRecord, t.rsp = s.rsp ++ [r] ∧
      r ∈ legalResponses ∧ r.extractLsb' 3 5 = 0 ∧
      (((∃ b, decode w = .command (.decPut b)) ∨ decode w = .command .decEoc ∨ decode w = .command .decEnd) →
        (r.extractLsb' 0 2 = 0 ∨ r.extractLsb' 0 2 = 2) → r.getLsbD 2 = t.dec.dccw) ∧
      (¬ ((∃ b, decode w = .command (.decPut b)) ∨ decode w = .command .decEoc ∨ decode w = .command .decEnd) →
        r.getLsbD 2 = false) ∧
      (r.extractLsb' 0 2 = 1 ∨ r.extractLsb' 0 2 = 3 → r.getLsbD 2 = false)

/-- R171: a command is answered `ConfigurationError` exactly when one of the two causes holds. -/
def Obligations.ConfigurationErrorHasExactlyTheseCauses : Prop :=
  ∀ (s t : State) (w : Word) (rest : List HostEvent),
    s.host.pending = .command w :: rest → step s = .next t →
    (t.rsp = s.rsp ++ [0x01] ↔ configurationCause w s)

/-- R172: a command is answered `FramingError` exactly when one of the causes holds. -/
def Obligations.FramingErrorHasExactlyTheseCauses : Prop :=
  ∀ (s t : State) (w : Word) (rest : List HostEvent),
    s.host.pending = .command w :: rest → step s = .next t →
    ((t.rsp = s.rsp ++ [0x02] ∨ t.rsp = s.rsp ++ [0x06]) ↔ framingCause w s)

/-- R173: a command is answered `IllegalCommand` exactly for an illegal encoding or a sequence violation, and then no state
of TSPE changes and nothing is emitted but the response. -/
def Obligations.IllegalCommandHasExactlyTheseCauses : Prop :=
  ∀ (s t : State) (w : Word) (rest : List HostEvent),
    s.host.pending = .command w :: rest → step s = .next t →
    (t.rsp = s.rsp ++ [0x03] ↔ illegalCause w s) ∧
    (illegalCause w s → t = { s with
      rsp := s.rsp ++ [0x03], host := { s.host with pending := rest, cmdIndex := s.host.cmdIndex + 1 } })

/-! ## Invariants and whole-machine rules -/

/-- R31 holds after reset. -/
def Obligations.InvariantsHoldAfterReset : Prop := Inv Config.build State.reset

/-- R31: every step of a state with the invariants gives a state with them. -/
def Obligations.EveryStepKeepsTheInvariants : Prop :=
  ∀ s t : State, Inv Config.build s → step s = .next t → Inv Config.build t

/-- R76, R83, R125: `EOUT` stays a sequence of closed containers of 1 to `MAX_PKTS` packets, every packet as R125 says. The
invariants of R31 are the premise: they bound the chunk and the group a packet is built from. -/
def Obligations.EoutStaysWellFramed : Prop :=
  EoutFramed Config.build State.reset ∧
  ∀ s t : State, Inv Config.build s → EoutFramed Config.build s → step s = .next t → EoutFramed Config.build t

/-- R82, R84: `DOUT` stays a sequence of closed buffers, and `RSP` holds only the six values TSPE can emit. -/
def Obligations.DoutAndRspStayWellFormed : Prop :=
  DoutFramed State.reset ∧ ResponsesLegal State.reset ∧
  ∀ s t : State, step s = .next t →
    (DoutFramed s → DoutFramed t) ∧ (ResponsesLegal s → ResponsesLegal t)

/-- R23: each flag is set and cleared only by what the table says, and is 0 after reset. `DFAIL` and `DCCW` are sticky
inside a group. -/
def Obligations.FlagsChangeOnlyWhereTheTableSays : Prop :=
  (∀ s t : State, step s = .next t →
    (s.cfg.chidV = false → t.cfg.chidV = true → ∃ v, s.presents (.cfgChid v) ∧ v.toNat ≤ 8191) ∧
    (s.cfg.chidV = true → t.cfg.chidV = false → (∃ v, s.presents (.cfgChid v) ∧ 8191 < v.toNat) ∨ s.resets) ∧
    (s.enc.ebusy = false → t.enc.ebusy = true → s.presents .encStart) ∧
    (s.enc.ebusy = true → t.enc.ebusy = false → s.presents .encEnd ∨ s.resets) ∧
    (s.dec.dbusy = false → t.dec.dbusy = true → s.presents .decStart) ∧
    (s.dec.dbusy = true → t.dec.dbusy = false → s.presents .decEnd ∨ s.resets) ∧
    (s.dec.dfail = false → t.dec.dfail = true →
      (∃ b, s.presents (.decPut b)) ∨ s.presents .decEoc ∨ s.presents .decEnd) ∧
    (s.dec.dfail = true → t.dec.dfail = false → s.presents .decStart ∨ s.resets) ∧
    (s.dec.dccw = false → t.dec.dccw = true → ∃ b, s.presents (.decPut b)) ∧
    (s.dec.dccw = true → t.dec.dccw = false → s.presents .decStart ∨ s.resets)) ∧
  State.reset.cfg.chidV = false ∧ State.reset.enc.ebusy = false ∧ State.reset.dec.dbusy = false ∧
  State.reset.dec.dfail = false ∧ State.reset.dec.dccw = false

/-- R24, R71: while an encode is in progress no command changes `CHID` or `CHID_V`; only a reset does. -/
def Obligations.ChannelIsConstantDuringAnEncode : Prop :=
  ∀ s t : State, step s = .next t → s.enc.ebusy = true → ¬ s.resets → t.cfg = s.cfg

/-- R34: which unit's commands write which unit's state, for every command and form. -/
def Obligations.UnitsWriteOnlyTheirOwnState : Prop :=
  ∀ (i : Instr) (s t : State), exec i s = .next t →
    (t.enc ≠ s.enc → i = .encStart ∨ (∃ b, i = .encPut b) ∨ i = .encEnd) ∧
    (t.dec ≠ s.dec → i = .decStart ∨ (∃ b, i = .decPut b) ∨ i = .decEoc ∨ i = .decEnd) ∧
    (t.cfg ≠ s.cfg → ∃ v, i = .cfgChid v) ∧
    t.host = s.host

/-- R34, R203: what happens to one unit does not depend on the other. A step from two states that agree on the configuration
and ENC but not on DEC does the same to the configuration and ENC, and the other way round. -/
def Obligations.UnitsReadOnlyTheirOwnState : Prop :=
  ∀ (s t t' : State) (cfg : Cfg) (enc : Enc) (dec : Dec),
    step s = .next t →
    (step { s with dec := dec } = .next t' → t'.cfg = t.cfg ∧ t'.enc = t.enc ∧
      (∀ i, s.presents i → isDecCommand i = false → t'.rsp = t.rsp)) ∧
    (step { s with cfg := cfg, enc := enc } = .next t' → t'.dec = t.dec ∧
      (∀ i, s.presents i → isDecCommand i = true → t'.rsp = t.rsp))

/-- R24, R32, U5: while `CHID_V = 0` no output and no other state depends on what `CHID` holds, for every value; and when a
command makes `CHID_V` 1, the register is the same whatever it held. -/
def Obligations.ChannelIsUnreadWhileInvalid : Prop :=
  ∀ (s t : State) (v : ChannelId), Inv Config.build s → s.cfg.chidV = false → step s = .next t →
    ∃ t', step { s with cfg := { s.cfg with chid := v } } = .next t' ∧
      t'.rsp = t.rsp ∧ t'.enc = t.enc ∧ t'.dec = t.dec ∧ t'.host = t.host ∧ t'.cfg.chidV = t.cfg.chidV ∧
      (t.cfg.chidV = true → t'.cfg = t.cfg)

/-- R151, R182: the counter and the warning change nothing but themselves and bit 2 of responses: whatever `DCC` and `DCCW`
hold, a step does the same to every other piece of state and answers the same `CODE`. -/
def Obligations.WarningChangesNothingElse : Prop :=
  ∀ (s t : State) (dcc : Count4) (dccw : Bool), step s = .next t →
    ∃ t', step { s with dec := { s.dec with dcc := dcc, dccw := dccw } } = .next t' ∧
      t'.dec.dbusy = t.dec.dbusy ∧ t'.dec.dfail = t.dec.dfail ∧ t'.dec.pbuf = t.dec.pbuf ∧ t'.dec.acc = t.dec.acc ∧
      t'.dec.dout = t.dec.dout ∧ t'.enc = t.enc ∧ t'.cfg = t.cfg ∧ t'.host = t.host ∧
      t'.rsp.map (fun r => r.extractLsb' 0 2) = t.rsp.map (fun r => r.extractLsb' 0 2)

/-- R7: only `MAX_PKTS` enters the rules. Two builds with one packet size and the same `MAX_PKTS` are the same hardware. -/
def Obligations.CapMattersOnlyThroughMaxPkts : Prop :=
  ∀ (p q : Build), p.packetSize = q.packetSize → p.maxPkts = q.maxPkts →
    (∀ (b : Byte) (s : State), encPut p b s = encPut q b s ∧ decPut p b s = decPut q b s) ∧
    (∀ s : State, encEnd p s = encEnd q s) ∧
    (∀ (input : Bytes) (chid : ChannelId), encodeInput p input chid = encodeInput q input chid)

/-! ## Reset -/

/-- R32: the state after reset, `CHID` apart, which the spec leaves unspecified. -/
def Obligations.ResetStateFollowsTheTable : Prop :=
  State.reset.cfg.chidV = false ∧ State.reset.enc.ebusy = false ∧ State.reset.enc.cc = 0 ∧
  State.reset.enc.efirst = true ∧ State.reset.enc.cbuf = [] ∧ State.reset.enc.gbuf = [] ∧
  State.reset.dec.dbusy = false ∧ State.reset.dec.dfail = false ∧ State.reset.dec.dccw = false ∧
  State.reset.dec.dcc = 0 ∧ State.reset.dec.pbuf = [] ∧ State.reset.dec.acc = []

/-- R190, R192: the `RESET` event, from every state: the table's values, `CHID` some value, the histories as they were,
no response. The count of commands starting again is the model's reading of R192 (log entry 10). -/
def Obligations.ResetEventFollowsItsRule : Prop :=
  ∀ (s : State) (rest : List HostEvent), s.host.pending = .reset :: rest →
    ∃ v : ChannelId, step s = .next
      { cfg := { chid := v, chidV := false }
        enc := { ebusy := false, cc := 0, efirst := true, cbuf := [], gbuf := [], eout := s.enc.eout }
        dec := { dbusy := false, dfail := false, dccw := false, dcc := 0, pbuf := [], acc := [], dout := s.dec.dout }
        rsp := s.rsp
        host := { pending := rest, cmdIndex := 0, rspBase := s.rsp.length } }

/-! ## The data formats -/

/-- R12, R70, R72: every field of the packed header stands at the bit offset of the table with the value ENC writes, and the
four bytes are `0x47400010 + chid × 256 + cc` as one big-endian number. -/
def Obligations.HeaderFieldsStandAtTheirOffsets : Prop :=
  ∀ (chid : ChannelId) (cc : Count4) (rest : Bytes) (P : Bytes), P = packHeader chid cc ++ rest →
    (packHeader chid cc).length = 4 ∧
    fieldAtOffset P 0 8 = 0x47 ∧ fieldAtOffset P 8 1 = 0 ∧ fieldAtOffset P 9 1 = 1 ∧ fieldAtOffset P 10 1 = 0 ∧
    fieldAtOffset P 11 13 = chid.toNat ∧ fieldAtOffset P 24 2 = 0 ∧ fieldAtOffset P 26 2 = 1 ∧
    fieldAtOffset P 28 4 = cc.toNat ∧
    fieldAtOffset P 0 32 = 0x47400010 + chid.toNat * 256 + cc.toNat

/-- R73: `UnpackHeader` reads each field of every header as the rule says, as numbers of the four bytes; and unpacking a packed
header gives back the identifier and the counter with the constants of R70, whatever follows. DEC uses only `CCF` from it: two
packets with one `CCF` and the same bytes from byte 4 on are folded alike. -/
def Obligations.UnpackInvertsPack : Prop :=
  (∀ h : Bytes,
    (unpackHeader h).syncf = byteAt h 0 ∧
    (unpackHeader h).erri.toNat = (byteAt h 1).toNat / 128 ∧
    (unpackHeader h).pstart.toNat = (byteAt h 1).toNat / 64 % 2 ∧
    (unpackHeader h).prio.toNat = (byteAt h 1).toNat / 32 % 2 ∧
    (unpackHeader h).chidf.toNat = (byteAt h 1).toNat % 32 * 256 + (byteAt h 2).toNat ∧
    (unpackHeader h).scr.toNat = (byteAt h 3).toNat / 64 ∧
    (unpackHeader h).afc.toNat = (byteAt h 3).toNat / 16 % 4 ∧
    (unpackHeader h).ccf.toNat = (byteAt h 3).toNat % 16) ∧
  (∀ (chid : ChannelId) (cc : Count4) (rest : Bytes),
    unpackHeader (packHeader chid cc ++ rest) =
      { syncf := 0x47, erri := 0, pstart := 1, prio := 0, chidf := chid, scr := 0, afc := 1, ccf := cc }) ∧
  (∀ (p : Build) (P Q : Bytes) (d : Dec),
    (unpackHeader P).ccf = (unpackHeader Q).ccf → P.drop 4 = Q.drop 4 → foldPacket p P d = foldPacket p Q d)

/-- R75, R117: the layout and the length of a packet, byte by byte, for every chunk of 1 to `CHUNK_SIZE` bytes. -/
def Obligations.PacketLayoutFollowsItsRule : Prop :=
  ∀ (p : Build) (chid : ChannelId) (cc : Count4) (st : Status) (c P : Bytes),
    p.wf = true → 1 ≤ c.length → c.length ≤ p.chunkSize → P = buildPacket p chid cc st c →
    P.length = p.packetSize ∧ P.take 4 = packHeader chid cc ∧
    byteAt P 4 = st.code ∧ byteAt P 5 = 0 ∧ (byteAt P 6).toNat * 256 + (byteAt P 7).toNat = c.length ∧
    (∀ i, i < c.length → byteAt P (8 + i) = byteAt c i) ∧
    (∀ i, 8 + c.length ≤ i → i < p.packetSize → byteAt P i = 0xFF)

/-! ## The function level: `ENCODE` -/

/-- R111: the slicer, with `n = ceil(N / CHUNK_SIZE)`. -/
def Obligations.SlicerFollowsItsRule : Prop :=
  ∀ (p : Build) (input : Bytes), p.wf = true →
    chunkCount p input = (input.length + p.chunkSize - 1) / p.chunkSize ∧
    (chunkCount p input = 0 ↔ input = []) ∧
    (∀ i, i + 1 < chunkCount p input → (chunkAt p input i).length = p.chunkSize) ∧
    (∀ i, i + 1 = chunkCount p input →
      (chunkAt p input i).length = input.length - i * p.chunkSize ∧
      1 ≤ (chunkAt p input i).length ∧ (chunkAt p input i).length ≤ p.chunkSize) ∧
    ((List.range (chunkCount p input)).map (chunkAt p input)).flatten = input

/-- R112: the statuses of `n` chunks are `[0]` for one and `[0, 1, ..., 1, 2]` for two or more, and each packet of an encode
carries the status of its chunk. -/
def Obligations.StatusesFollowTheirRule : Prop :=
  (List.range 1).map (statusAt 1) = [.first] ∧
  (∀ n, 2 ≤ n → (List.range n).map (statusAt n) = .first :: (List.replicate (n - 2) .middle ++ [.last])) ∧
  Status.first.code = 0 ∧ Status.middle.code = 1 ∧ Status.last.code = 2 ∧
  (∀ (p : Build) (input : Bytes) (chid : ChannelId), p.wf = true →
    (packetsOf p input chid).map (fun P => byteAt P 4) =
      (List.range (chunkCount p input)).map (fun i => (statusAt (chunkCount p input) i).code))

/-- R126: packet `i` of an encode carries the counter `i mod 16`, and the first packet of container `j` the counter
`(j × MAX_PKTS) mod 16`: the counter does not see container boundaries. -/
def Obligations.ContinuityLaw : Prop :=
  ∀ (p : Build) (input : Bytes) (chid : ChannelId), p.wf = true →
    (packetsOf p input chid).length = chunkCount p input ∧
    (∀ (i : Nat) (P : Bytes), (packetsOf p input chid)[i]? = some P → (byteAt P 3).toNat % 16 = i % 16) ∧
    (∀ (j : Nat) (c : Bytes), (encodeInput p input chid)[j]? = some c →
      (byteAt c 3).toNat % 16 = (j * p.maxPkts) % 16)

/-- R124: the grouper partitions any packet sequence in order into `ceil(P / MAX_PKTS)` runs, all but the last of exactly
`MAX_PKTS` packets and the last of 1 to `MAX_PKTS`. -/
def Obligations.GrouperPartitionsThePackets : Prop :=
  ∀ (p : Build) (pkts : List Bytes), p.wf = true →
    (groupPackets p pkts).flatten = pkts ∧
    (groupPackets p pkts).length = (pkts.length + p.maxPkts - 1) / p.maxPkts ∧
    (∀ (j : Nat) (g : List Bytes), (groupPackets p pkts)[j]? = some g →
      g = (pkts.drop (j * p.maxPkts)).take p.maxPkts ∧
      (j + 1 < (groupPackets p pkts).length → g.length = p.maxPkts) ∧
      (j + 1 = (groupPackets p pkts).length →
        g.length = pkts.length - j * p.maxPkts ∧ 1 ≤ g.length ∧ g.length ≤ p.maxPkts))

/-- R127: no container exceeds `CONTAINER_SIZE_CAP` bytes; every container but the last of an encode has exactly
`MAX_PKTS × PACKET_SIZE` bytes, and the last between `PACKET_SIZE` and that. -/
def Obligations.ContainerCapLaw : Prop :=
  ∀ (p : Build) (input : Bytes) (chid : ChannelId), p.wf = true →
    ∀ (j : Nat) (c : Bytes), (encodeInput p input chid)[j]? = some c →
      c.length ≤ p.maxPkts * p.packetSize ∧ p.maxPkts * p.packetSize ≤ p.containerSizeCap ∧
      (j + 1 < (encodeInput p input chid).length → c.length = p.maxPkts * p.packetSize) ∧
      (j + 1 = (encodeInput p input chid).length → p.packetSize ≤ c.length)

/-- R130: the empty input gives no container, and at command level `ENC.START`, `ENC.END` emit nothing on `EOUT` and answer
`OK` twice. -/
def Obligations.EmptyInputGivesNoContainer : Prop :=
  (∀ (p : Build) (chid : ChannelId), p.wf = true → encodeInput p [] chid = []) ∧
  (∀ s : State, s.enc.ebusy = false → s.cfg.chidV = true →
    ∃ t, runSteps 2 (s.presenting [.encStart, .encEnd]) = .next t ∧
      t.enc.eout = s.enc.eout ∧ t.rsp = s.rsp ++ [0x00, 0x00] ∧ t.enc.ebusy = false)

/-- R129: one encode's commands, with any `DEC.*` commands interleaved, answer `OK` throughout and emit on `EOUT` exactly the
containers of `ENCODE`, each closed by its `EOC`, and leave ENC as the rule says. -/
def Obligations.EncodeCommandsComputeEncode : Prop :=
  ∀ (s : State) (chid : ChannelId) (input : Bytes) (is : List Instr),
    s.enc.ebusy = false →
    is.filter (fun i => !isDecCommand i) = encodeCommands chid input →
    ∃ (t : State) (rs : List RspRecord),
      runSteps is.length (s.presenting is) = .next t ∧
      t.rsp = s.rsp ++ rs ∧ rs.length = is.length ∧
      responsesTo (fun i => !isDecCommand i) is rs = List.replicate (input.length + 3) 0x00 ∧
      t.enc.eout = s.enc.eout ++ (encodeInput Config.build input chid).flatMap closedRecords ∧
      t.enc.ebusy = false ∧ t.enc.cbuf = [] ∧ t.enc.gbuf = [] ∧
      t.cfg = { chid := chid, chidV := true } ∧
      (t.enc.efirst = true ↔ input = []) ∧
      t.enc.cc = BitVec.ofNat 4 ((input.length + 179) / 180)

/-- R30, R123, R129 (loop invariant), R200: after `k ≥ 1` bytes of an encode, `m = floor((k − 1) / CHUNK_SIZE)` packets have been
built, none of them last; the full containers among them have appeared on `EOUT`, the packets after those wait in `GBUF`, and the
rest of the bytes in `CBUF`. Up to `CHUNK_SIZE × MAX_PKTS` bytes nothing appears on `EOUT`. -/
def Obligations.OutputLagsInput : Prop :=
  ∀ (s : State) (chid : ChannelId) (input : Bytes) (m M : Nat) (pkts : List Bytes),
    s.enc.ebusy = false → input ≠ [] →
    m = (input.length - 1) / 180 → M = Config.build.containerSizeCap / 188 →
    pkts = (List.range m).map (fun i =>
      buildPacket Config.build chid (BitVec.ofNat 4 i) (if i = 0 then .first else .middle)
        ((input.drop (180 * i)).take 180)) →
    ∃ t : State,
      runSteps (input.length + 2) (s.presenting ([.cfgChid (chid.setWidth 16), .encStart] ++ input.map .encPut)) = .next t ∧
      t.enc.cbuf = input.drop (180 * m) ∧ t.enc.cc = BitVec.ofNat 4 m ∧
      t.enc.gbuf = pkts.drop (m / M * M) ∧
      t.enc.eout = s.enc.eout ++
        (List.range (m / M)).flatMap (fun j => closedRecords ((pkts.drop (j * M)).take M).flatten) ∧
      (input.length ≤ 180 * M → t.enc.eout = s.enc.eout)

/-! ## The function level: `DECODE` -/

/-- R161: one group's commands, with any `CFG.*` and `ENC.*` commands interleaved, have the result of `DECODE`. -/
def Obligations.DecodeCommandsComputeDecode : Prop :=
  ∀ (s : State) (cs : List Bytes) (is : List Instr),
    s.dec.dbusy = false →
    is.filter isDecCommand = decodeCommands cs →
    ∃ (t : State) (rs : List RspRecord),
      runSteps is.length (s.presenting is) = .next t ∧
      t.rsp = s.rsp ++ rs ∧ rs.length = is.length ∧
      t.dec.dbusy = false ∧ t.dec.acc = [] ∧ t.dec.pbuf = [] ∧
      (∀ out ccw, decodeGroup Config.build cs = .ok out ccw →
        (∀ r ∈ responsesTo isDecCommand is rs, r.extractLsb' 0 2 = 0) ∧
        (responsesTo isDecCommand is rs).getLast? = some (if ccw then 0x04 else 0x00) ∧
        t.dec.dout = s.dec.dout ++ closedRecords out) ∧
      (decodeGroup Config.build cs = .framingError →
        (∃ r, (responsesTo isDecCommand is rs).getLast? = some r ∧ r.extractLsb' 0 2 = 2) ∧
        t.dec.dout = s.dec.dout)

/-- R162: the round trip, for every input, identifier and legal build. -/
def Obligations.DecodeOfEncodeIsTheInput : Prop :=
  ∀ (p : Build) (input : Bytes) (chid : ChannelId), p.wf = true →
    decodeGroup p (encodeInput p input chid) = .ok input false

/-- R166: container boundaries do not matter, only the packet order. -/
def Obligations.ContainerBoundariesDoNotMatter : Prop :=
  ∀ (p : Build) (cs cs' : List Bytes), p.wf = true →
    (∀ c ∈ cs, c.length % p.packetSize = 0) → (∀ c ∈ cs', c.length % p.packetSize = 0) →
    cs.flatten = cs'.flatten → decodeGroup p cs = decodeGroup p cs'

/-- R163: the empty group, also of empty containers only, decodes to the empty sequence; at command level it emits one `EOB`
and answers `OK` twice. -/
def Obligations.EmptyGroupDecodesToNothing : Prop :=
  (∀ (p : Build) (n : Nat), p.wf = true → decodeGroup p (List.replicate n []) = .ok [] false) ∧
  (∀ s : State, s.dec.dbusy = false →
    ∃ t, runSteps 2 (s.presenting [.decStart, .decEnd]) = .next t ∧
      t.dec.dout = s.dec.dout ++ [0x100] ∧ t.rsp = s.rsp ++ [0x00, 0x00])

/-- R164: a container whose length is not a multiple of `PACKET_SIZE` fails its group, whatever stands before it, and nothing
is appended to `DOUT`. -/
def Obligations.CorruptContainerFailsItsGroup : Prop :=
  (∀ (p : Build) (cs : List Bytes) (c : Bytes), p.wf = true → c ∈ cs → c.length % p.packetSize ≠ 0 →
    decodeGroup p cs = .framingError) ∧
  (∀ (s : State) (cs : List Bytes) (c : Bytes), s.dec.dbusy = false → c ∈ cs → c.length % 188 ≠ 0 →
    ∃ (t : State) (r : RspRecord),
      runSteps (decodeCommands cs).length (s.presenting (decodeCommands cs)) = .next t ∧
      t.dec.dout = s.dec.dout ∧ t.rsp.getLast? = some r ∧ r.extractLsb' 0 2 = 2)

/-- R150, R156: after a run of `K` bytes in a group that has not failed, `floor(K / PACKET_SIZE)` packets have been folded, `PBUF`
holds the other `K mod PACKET_SIZE` bytes, and nothing has appeared on `DOUT`; a group that failed holds nothing. -/
def Obligations.DeframerFollowsItsRule : Prop :=
  ∀ (s : State) (bytes : Bytes), s.dec.dbusy = true → s.dec.dfail = false → s.dec.pbuf = [] →
    ∃ t : State,
      runSteps bytes.length (s.presenting (bytes.map .decPut)) = .next t ∧
      t.dec.dbusy = true ∧ t.dec.dout = s.dec.dout ∧
      (t.dec.dfail = false →
        t.dec.pbuf = bytes.drop (bytes.length / 188 * 188) ∧ t.dec.pbuf.length = bytes.length % 188 ∧
        t.dec.dcc = s.dec.dcc + BitVec.ofNat 4 (bytes.length / 188)) ∧
      (bytes ≠ [] → t.dec.dfail = true → t.dec.pbuf = [] ∧ t.dec.acc = [])

/-- R155, R196: two encodes put into one group decode to the second input alone, and the warning is set unless the first
encode had a multiple of 16 packets. -/
def Obligations.SecondEncodeReplacesTheFirst : Prop :=
  ∀ (p : Build) (a b : Bytes) (chid chid' : ChannelId), p.wf = true → b ≠ [] →
    decodeGroup p (encodeInput p a chid ++ encodeInput p b chid') =
      .ok b (decide (chunkCount p a % 16 ≠ 0))

/-- R165: the warning is the same whether each counter is compared with the packet's position or with its predecessor. -/
def Obligations.CounterWarningEitherWay : Prop :=
  ∀ pkts : List Bytes, counterWarning pkts = predecessorWarning 0 pkts

/-- R83: the mark bit cannot be confused with data: HOST reads back from any run of closed containers exactly those
containers, with nothing left over. -/
def Obligations.HostReadsBackTheContainers : Prop :=
  ∀ cs : List Bytes, readRuns [] (cs.flatMap closedRecords) = (cs, [])
end

