-- ==== Sys2Proof/Laws/Decode.lean ====
section
/-! SUPPORT. The fields of a packed command word, as numbers and as bit fields (spec rules R77, R79). -/

namespace Sys2Proof

theorem packWord_toNat (op rsv : BitVec 8) (imm : BitVec 16) :
    (packWord op rsv imm).toNat = op.toNat * 2 ^ 24 + rsv.toNat * 2 ^ 16 + imm.toNat := by
  have := imm.isLt
  have := rsv.isLt
  simp only [packWord, BitVec.toNat_append, Nat.shiftLeft_eq]
  rw [Nat.mul_comm op.toNat, ← Nat.two_pow_add_eq_or_of_lt (by omega), Nat.mul_comm _ (2 ^ 16),
    ← Nat.two_pow_add_eq_or_of_lt (by omega)]
  omega

theorem opField_toNat (w : Word) : (opField w).toNat = w.toNat / 2 ^ 24 := by
  have := w.isLt
  simp only [opField, BitVec.extractLsb'_toNat, Nat.shiftRight_eq_div_pow]
  omega

theorem rsvField_toNat (w : Word) : (rsvField w).toNat = w.toNat / 2 ^ 16 % 256 := by
  simp [rsvField, BitVec.extractLsb'_toNat, Nat.shiftRight_eq_div_pow]

theorem immField_toNat (w : Word) : (immField w).toNat = w.toNat % 2 ^ 16 := by
  simp [immField, BitVec.extractLsb'_toNat, Nat.shiftRight_eq_div_pow]

theorem immHighField_toNat (w : Word) : (immHighField w).toNat = w.toNat / 2 ^ 8 % 256 := by
  simp [immHighField, BitVec.extractLsb'_toNat, Nat.shiftRight_eq_div_pow]

theorem immLowField_toNat (w : Word) : (immLowField w).toNat = w.toNat % 2 ^ 8 := by
  simp [immLowField, BitVec.extractLsb'_toNat, Nat.shiftRight_eq_div_pow]

@[simp] theorem opField_packWord (op rsv : BitVec 8) (imm : BitVec 16) : opField (packWord op rsv imm) = op := by
  have := op.isLt; have := rsv.isLt; have := imm.isLt
  apply BitVec.eq_of_toNat_eq; rw [opField_toNat, packWord_toNat]; omega

@[simp] theorem rsvField_packWord (op rsv : BitVec 8) (imm : BitVec 16) : rsvField (packWord op rsv imm) = rsv := by
  have := op.isLt; have := rsv.isLt; have := imm.isLt
  apply BitVec.eq_of_toNat_eq; rw [rsvField_toNat, packWord_toNat]; omega

@[simp] theorem immField_packWord (op rsv : BitVec 8) (imm : BitVec 16) : immField (packWord op rsv imm) = imm := by
  have := op.isLt; have := rsv.isLt; have := imm.isLt
  apply BitVec.eq_of_toNat_eq; rw [immField_toNat, packWord_toNat]; omega

@[simp] theorem immHighField_packWord_byte (op rsv : BitVec 8) (b : Byte) :
    immHighField (packWord op rsv (b.setWidth 16)) = 0 := by
  have := op.isLt; have := rsv.isLt; have := b.isLt
  apply BitVec.eq_of_toNat_eq; rw [immHighField_toNat, packWord_toNat]; simp; omega

@[simp] theorem immLowField_packWord_byte (op rsv : BitVec 8) (b : Byte) :
    immLowField (packWord op rsv (b.setWidth 16)) = b := by
  have := op.isLt; have := rsv.isLt; have := b.isLt
  apply BitVec.eq_of_toNat_eq; rw [immLowField_toNat, packWord_toNat]; simp; omega

/-- A word is its three fields (R77). -/
theorem packWord_fields (w : Word) : packWord (opField w) (rsvField w) (immField w) = w := by
  have := w.isLt
  apply BitVec.eq_of_toNat_eq
  rw [packWord_toNat, opField_toNat, rsvField_toNat, immField_toNat]
  omega

/-- A byte operand with `W[15:8] = 0` is the whole of `IMM` (R79). -/
theorem immField_of_high_zero (w : Word) (h : immHighField w = 0) : (immLowField w).setWidth 16 = immField w := by
  have h' := congrArg BitVec.toNat h
  rw [immHighField_toNat] at h'
  have := w.isLt
  apply BitVec.eq_of_toNat_eq
  rw [BitVec.toNat_setWidth, immLowField_toNat, immField_toNat]
  simp at h'
  omega

end Sys2Proof
end

