-- ==== Sys2Proof/Laws/Format.lean ====
section
/-! SUPPORT. Laws of the build parameters and of the data formats: lengths, the bytes of a packet by offset, and that DEC
reads back from a built packet the status and the chunk it was built from. -/

namespace Sys2Proof

theorem Build.wf_iff (p : Build) :
    p.wf = true ↔ 8 < p.packetSize ∧ p.packetSize - 8 ≤ 65535 ∧ p.packetSize ≤ p.containerSizeCap := by
  simp only [Build.wf, Bool.and_eq_true, decide_eq_true_eq]
  simp only [Build.chunkSize, Build.payloadCapacity, headerBytes, headReserve]
  omega

theorem Build.chunkSize_eq (p : Build) : p.chunkSize = p.packetSize - 8 := by
  simp [Build.chunkSize, Build.payloadCapacity, headerBytes, headReserve, Nat.sub_sub]

theorem Build.chunkSize_add (p : Build) (h : p.wf = true) : p.chunkSize + 8 = p.packetSize := by
  have := (p.wf_iff.1 h).1
  rw [p.chunkSize_eq]; omega

theorem Build.chunkSize_pos (p : Build) (h : p.wf = true) : 0 < p.chunkSize := by
  have := p.chunkSize_add h
  have := (p.wf_iff.1 h).1
  omega

theorem Build.maxPkts_pos (p : Build) (h : p.wf = true) : 0 < p.maxPkts := by
  obtain ⟨h1, _, h3⟩ := p.wf_iff.1 h
  exact Nat.div_pos h3 (by omega)

theorem Build.maxPkts_le_cap (p : Build) : p.maxPkts * p.packetSize ≤ p.containerSizeCap :=
  Nat.div_mul_le_self ..

@[simp] theorem Config.build_packetSize : Config.build.packetSize = 188 := rfl
@[simp] theorem Config.build_chunkSize : Config.build.chunkSize = 180 := rfl
theorem Config.build_maxPkts : Config.build.maxPkts = Config.build.containerSizeCap / 188 := rfl

/-- The machine's build meets the constraints of R6 and R7, whatever the free value is. -/
theorem Config.build_wf : Config.build.wf = true := by
  rw [Build.wf_iff]
  refine ⟨by decide, by decide, ?_⟩
  show 188 ≤ 188 + Config.capExcess
  omega

end Sys2Proof

namespace Sys2Proof.Machine

@[simp] theorem packHeader_length (chid : ChannelId) (cc : Count4) : (packHeader chid cc).length = 4 := rfl

@[simp] theorem annotate_length (c : Bytes) (st : Status) : (annotate c st).length = c.length + 4 := by
  simp [annotate]

theorem buildPacket_length (p : Build) (chid : ChannelId) (cc : Count4) (st : Status) (c : Bytes)
    (hp : p.wf = true) (hc : c.length ≤ p.chunkSize) : (buildPacket p chid cc st c).length = p.packetSize := by
  have := p.chunkSize_add hp
  simp [buildPacket]; omega

@[simp] theorem closedRecords_length (bytes : Bytes) : (closedRecords bytes).length = bytes.length + 1 := by
  simp [closedRecords]

@[simp] theorem byteAt_cons_zero (b : Byte) (s : Bytes) : byteAt (b :: s) 0 = b := rfl
@[simp] theorem byteAt_cons_succ (b : Byte) (s : Bytes) (i : Nat) : byteAt (b :: s) (i + 1) = byteAt s i := by
  simp [byteAt]

/-- Past the first eight bytes a packet is the chunk and its stuffing. -/
theorem buildPacket_eq (p : Build) (chid : ChannelId) (cc : Count4) (st : Status) (c : Bytes) :
    buildPacket p chid cc st c =
      [syncByte, (0b010#3 ++ chid.extractLsb' 8 5 : BitVec 8), chid.extractLsb' 0 8, (0b0001#4 ++ cc : BitVec 8),
        st.code, 0x00, (BitVec.ofNat 16 c.length).extractLsb' 8 8, (BitVec.ofNat 16 c.length).extractLsb' 0 8] ++
      (c ++ List.replicate (p.chunkSize - c.length) stuffByte) := by
  simp [buildPacket, packHeader, annotate]

@[simp] theorem readCounter_buildPacket (p : Build) (chid : ChannelId) (cc : Count4) (st : Status) (c : Bytes) :
    readCounter (buildPacket p chid cc st c) = cc := by
  rw [buildPacket_eq]
  simp only [readCounter, List.cons_append, byteAt_cons_succ, byteAt_cons_zero]
  revert cc; decide

@[simp] theorem Status.ofByte_code (st : Status) : Status.ofByte st.code = some st := by cases st <;> rfl

@[simp] theorem readStatus_buildPacket (p : Build) (chid : ChannelId) (cc : Count4) (st : Status) (c : Bytes) :
    readStatus (buildPacket p chid cc st c) = some st := by
  rw [buildPacket_eq]
  simp only [readStatus, List.cons_append, byteAt_cons_succ, byteAt_cons_zero, Status.ofByte_code]

/-- The two length bytes of a head carry a 16-bit length, most significant byte first (R55). -/
theorem lenBytes (n : Nat) (h : n ≤ 65535) :
    ((BitVec.ofNat 16 n).extractLsb' 8 8).toNat * 256 + ((BitVec.ofNat 16 n).extractLsb' 0 8).toNat = n := by
  simp [BitVec.extractLsb'_toNat, Nat.shiftRight_eq_div_pow]; omega

theorem readLen_buildPacket (p : Build) (chid : ChannelId) (cc : Count4) (st : Status) (c : Bytes)
    (h : c.length ≤ 65535) : readLen (buildPacket p chid cc st c) = c.length := by
  rw [buildPacket_eq]
  simp only [readLen, List.cons_append, byteAt_cons_succ, byteAt_cons_zero, lenBytes _ h]

theorem readData_buildPacket (p : Build) (chid : ChannelId) (cc : Count4) (st : Status) (c : Bytes)
    (h : c.length ≤ 65535) : readData (buildPacket p chid cc st c) = c := by
  unfold readData
  rw [readLen_buildPacket p chid cc st c h, buildPacket_eq]
  simp [slice]

/-- DEC's reading of a packet ENC built: the status and the chunk, without the stuffing. -/
theorem readHead_buildPacket (p : Build) (chid : ChannelId) (cc : Count4) (st : Status) (c : Bytes)
    (hp : p.wf = true) (h : c.length ≤ p.chunkSize) :
    readHead p (buildPacket p chid cc st c) = some (st, c) := by
  have h16 : c.length ≤ 65535 := by
    have := (p.wf_iff.1 hp).2.1
    rw [p.chunkSize_eq] at h; omega
  simp only [readHead, readStatus_buildPacket, readLen_buildPacket p chid cc st c h16,
    readData_buildPacket p chid cc st c h16]
  exact if_neg (by omega)

/-- When the checks of R157 fail a packet. -/
theorem readHead_eq_none_iff (p : Build) (P : Bytes) :
    readHead p P = none ↔ 2 < (byteAt P 4).toNat ∨ p.chunkSize < readLen P := by
  have key : ∀ b : Byte, Status.ofByte b = none ↔ 2 < b.toNat := by decide
  unfold readHead
  cases h : readStatus P with
  | none => simp [(key _).1 h]
  | some st =>
    have : ¬ 2 < (byteAt P 4).toNat := fun hlt => by simp [readStatus, (key _).2 hlt] at h
    simp [this]

/-- What a packet that passes the checks of R157 gives. -/
theorem readHead_eq_some_iff (p : Build) (P : Bytes) (st : Status) (data : Bytes) :
    readHead p P = some (st, data) ↔ readStatus P = some st ∧ readLen P ≤ p.chunkSize ∧ readData P = data := by
  unfold readHead
  cases readStatus P with
  | none => simp
  | some st' =>
    by_cases h : p.chunkSize < readLen P
    · simp [h]
    · simp [h, Nat.le_of_not_lt h]

end Sys2Proof.Machine
end

