-- ==== Sys2Proof/Laws/State.lean ====
section
/-! SUPPORT. One lemma per field per update of the state, each true by unfolding the update. -/

namespace Sys2Proof.Machine

/-! `State.onCfg` -/

@[simp] theorem onCfg_cfg (f : Cfg → Cfg) (s : State) : (s.onCfg f).cfg = f s.cfg := rfl
@[simp] theorem onCfg_enc (f : Cfg → Cfg) (s : State) : (s.onCfg f).enc = s.enc := rfl
@[simp] theorem onCfg_dec (f : Cfg → Cfg) (s : State) : (s.onCfg f).dec = s.dec := rfl
@[simp] theorem onCfg_rsp (f : Cfg → Cfg) (s : State) : (s.onCfg f).rsp = s.rsp := rfl
@[simp] theorem onCfg_host (f : Cfg → Cfg) (s : State) : (s.onCfg f).host = s.host := rfl

/-! `State.onEnc` -/

@[simp] theorem onEnc_cfg (f : Enc → Enc) (s : State) : (s.onEnc f).cfg = s.cfg := rfl
@[simp] theorem onEnc_enc (f : Enc → Enc) (s : State) : (s.onEnc f).enc = f s.enc := rfl
@[simp] theorem onEnc_dec (f : Enc → Enc) (s : State) : (s.onEnc f).dec = s.dec := rfl
@[simp] theorem onEnc_rsp (f : Enc → Enc) (s : State) : (s.onEnc f).rsp = s.rsp := rfl
@[simp] theorem onEnc_host (f : Enc → Enc) (s : State) : (s.onEnc f).host = s.host := rfl

/-! `State.onDec` -/

@[simp] theorem onDec_cfg (f : Dec → Dec) (s : State) : (s.onDec f).cfg = s.cfg := rfl
@[simp] theorem onDec_enc (f : Dec → Dec) (s : State) : (s.onDec f).enc = s.enc := rfl
@[simp] theorem onDec_dec (f : Dec → Dec) (s : State) : (s.onDec f).dec = f s.dec := rfl
@[simp] theorem onDec_rsp (f : Dec → Dec) (s : State) : (s.onDec f).rsp = s.rsp := rfl
@[simp] theorem onDec_host (f : Dec → Dec) (s : State) : (s.onDec f).host = s.host := rfl

/-! `respond` -/

@[simp] theorem respond_cfg (code : RspCode) (ccw : Bool) (s : State) : (respond code ccw s).cfg = s.cfg := rfl
@[simp] theorem respond_enc (code : RspCode) (ccw : Bool) (s : State) : (respond code ccw s).enc = s.enc := rfl
@[simp] theorem respond_dec (code : RspCode) (ccw : Bool) (s : State) : (respond code ccw s).dec = s.dec := rfl
@[simp] theorem respond_rsp (code : RspCode) (ccw : Bool) (s : State) : (respond code ccw s).rsp = s.rsp ++ [rspRecord code ccw] := rfl
@[simp] theorem respond_host (code : RspCode) (ccw : Bool) (s : State) : (respond code ccw s).host = s.host := rfl

/-! `raise` -/

@[simp] theorem raise_cfg (e : ErrorKind) (s : State) : (raise e s).cfg = s.cfg := rfl
@[simp] theorem raise_enc (e : ErrorKind) (s : State) : (raise e s).enc = s.enc := rfl
@[simp] theorem raise_dec (e : ErrorKind) (s : State) : (raise e s).dec = s.dec := rfl
@[simp] theorem raise_rsp (e : ErrorKind) (s : State) : (raise e s).rsp = s.rsp ++ [rspRecord e.code false] := rfl
@[simp] theorem raise_host (e : ErrorKind) (s : State) : (raise e s).host = s.host := rfl

/-! `respondGroup` -/

@[simp] theorem respondGroup_cfg (s : State) : (respondGroup s).cfg = s.cfg := rfl
@[simp] theorem respondGroup_enc (s : State) : (respondGroup s).enc = s.enc := rfl
@[simp] theorem respondGroup_dec (s : State) : (respondGroup s).dec = s.dec := rfl
@[simp] theorem respondGroup_rsp (s : State) : (respondGroup s).rsp = s.rsp ++ [rspRecord (groupCode s.dec.dfail) s.dec.dccw] := rfl
@[simp] theorem respondGroup_host (s : State) : (respondGroup s).host = s.host := rfl

/-! `dropEvent` -/

@[simp] theorem dropEvent_cfg (rest : List HostEvent) (s : State) : (dropEvent rest s).cfg = s.cfg := rfl
@[simp] theorem dropEvent_enc (rest : List HostEvent) (s : State) : (dropEvent rest s).enc = s.enc := rfl
@[simp] theorem dropEvent_dec (rest : List HostEvent) (s : State) : (dropEvent rest s).dec = s.dec := rfl
@[simp] theorem dropEvent_rsp (rest : List HostEvent) (s : State) : (dropEvent rest s).rsp = s.rsp := rfl
@[simp] theorem dropEvent_host (rest : List HostEvent) (s : State) : (dropEvent rest s).host = { s.host with pending := rest } := rfl

/-! `takeCommand` -/

@[simp] theorem takeCommand_cfg (rest : List HostEvent) (s : State) : (takeCommand rest s).cfg = s.cfg := rfl
@[simp] theorem takeCommand_enc (rest : List HostEvent) (s : State) : (takeCommand rest s).enc = s.enc := rfl
@[simp] theorem takeCommand_dec (rest : List HostEvent) (s : State) : (takeCommand rest s).dec = s.dec := rfl
@[simp] theorem takeCommand_rsp (rest : List HostEvent) (s : State) : (takeCommand rest s).rsp = s.rsp := rfl
@[simp] theorem takeCommand_host (rest : List HostEvent) (s : State) : (takeCommand rest s).host = { s.host with pending := rest, cmdIndex := s.host.cmdIndex + 1 } := rfl

/-! `resetEvent` -/

@[simp] theorem resetEvent_cfg (s : State) : (resetEvent s).cfg = State.reset.cfg := rfl
@[simp] theorem resetEvent_enc (s : State) : (resetEvent s).enc = { State.reset.enc with eout := s.enc.eout } := rfl
@[simp] theorem resetEvent_dec (s : State) : (resetEvent s).dec = { State.reset.dec with dout := s.dec.dout } := rfl
@[simp] theorem resetEvent_rsp (s : State) : (resetEvent s).rsp = s.rsp := rfl
@[simp] theorem resetEvent_host (s : State) : (resetEvent s).host = { pending := s.host.pending, cmdIndex := 0, rspBase := s.rsp.length } := rfl

/-! `State.withFetchWord` -/

@[simp] theorem withFetchWord_cfg (nbits w : Nat) (s : State) : (s.withFetchWord nbits w).cfg = s.cfg := rfl
@[simp] theorem withFetchWord_enc (nbits w : Nat) (s : State) : (s.withFetchWord nbits w).enc = s.enc := rfl
@[simp] theorem withFetchWord_dec (nbits w : Nat) (s : State) : (s.withFetchWord nbits w).dec = s.dec := rfl
@[simp] theorem withFetchWord_rsp (nbits w : Nat) (s : State) : (s.withFetchWord nbits w).rsp = s.rsp := rfl
@[simp] theorem withFetchWord_host (nbits w : Nat) (s : State) : (s.withFetchWord nbits w).host = { s.host with pending := .command (tableWord nbits w) :: s.host.pending } := rfl

/-! `loadChid`, `invalidateChid` -/

@[simp] theorem loadChid_chid (v : ChannelId) (c : Cfg) : (loadChid v c).chid = v := rfl
@[simp] theorem loadChid_chidV (v : ChannelId) (c : Cfg) : (loadChid v c).chidV = true := rfl
@[simp] theorem invalidateChid_chid (c : Cfg) : (invalidateChid c).chid = c.chid := rfl
@[simp] theorem invalidateChid_chidV (c : Cfg) : (invalidateChid c).chidV = false := rfl

/-! `beginEncode` -/

@[simp] theorem beginEncode_ebusy (e : Enc) : (beginEncode e).ebusy = true := rfl
@[simp] theorem beginEncode_efirst (e : Enc) : (beginEncode e).efirst = true := rfl
@[simp] theorem beginEncode_cc (e : Enc) : (beginEncode e).cc = 0 := rfl
@[simp] theorem beginEncode_cbuf (e : Enc) : (beginEncode e).cbuf = [] := rfl
@[simp] theorem beginEncode_gbuf (e : Enc) : (beginEncode e).gbuf = [] := rfl
@[simp] theorem beginEncode_eout (e : Enc) : (beginEncode e).eout = e.eout := rfl

/-! `flushContainer` -/

@[simp] theorem flushContainer_ebusy (e : Enc) : (flushContainer e).ebusy = e.ebusy := rfl
@[simp] theorem flushContainer_efirst (e : Enc) : (flushContainer e).efirst = e.efirst := rfl
@[simp] theorem flushContainer_cc (e : Enc) : (flushContainer e).cc = e.cc := rfl
@[simp] theorem flushContainer_cbuf (e : Enc) : (flushContainer e).cbuf = e.cbuf := rfl
@[simp] theorem flushContainer_gbuf (e : Enc) : (flushContainer e).gbuf = [] := rfl
@[simp] theorem flushContainer_eout (e : Enc) : (flushContainer e).eout = e.eout ++ closedRecords e.gbuf.flatten := rfl

/-! `pushPacket` -/

@[simp] theorem pushPacket_ebusy (p : Build) (chid : ChannelId) (last : Bool) (e : Enc) : (pushPacket p chid last e).ebusy = e.ebusy := rfl
@[simp] theorem pushPacket_efirst (p : Build) (chid : ChannelId) (last : Bool) (e : Enc) : (pushPacket p chid last e).efirst = false := rfl
@[simp] theorem pushPacket_cc (p : Build) (chid : ChannelId) (last : Bool) (e : Enc) : (pushPacket p chid last e).cc = nextCount e.cc := rfl
@[simp] theorem pushPacket_cbuf (p : Build) (chid : ChannelId) (last : Bool) (e : Enc) : (pushPacket p chid last e).cbuf = [] := rfl
@[simp] theorem pushPacket_gbuf (p : Build) (chid : ChannelId) (last : Bool) (e : Enc) : (pushPacket p chid last e).gbuf = e.gbuf ++ [buildPacket p chid e.cc (chooseStatus e.efirst last) e.cbuf] := rfl
@[simp] theorem pushPacket_eout (p : Build) (chid : ChannelId) (last : Bool) (e : Enc) : (pushPacket p chid last e).eout = e.eout := rfl

/-! `appendInput` -/

@[simp] theorem appendInput_ebusy (b : Byte) (e : Enc) : (appendInput b e).ebusy = e.ebusy := rfl
@[simp] theorem appendInput_efirst (b : Byte) (e : Enc) : (appendInput b e).efirst = e.efirst := rfl
@[simp] theorem appendInput_cc (b : Byte) (e : Enc) : (appendInput b e).cc = e.cc := rfl
@[simp] theorem appendInput_cbuf (b : Byte) (e : Enc) : (appendInput b e).cbuf = e.cbuf ++ [b] := rfl
@[simp] theorem appendInput_gbuf (b : Byte) (e : Enc) : (appendInput b e).gbuf = e.gbuf := rfl
@[simp] theorem appendInput_eout (b : Byte) (e : Enc) : (appendInput b e).eout = e.eout := rfl

/-! `endEncode` -/

@[simp] theorem endEncode_ebusy (e : Enc) : (endEncode e).ebusy = false := rfl
@[simp] theorem endEncode_efirst (e : Enc) : (endEncode e).efirst = e.efirst := rfl
@[simp] theorem endEncode_cc (e : Enc) : (endEncode e).cc = e.cc := rfl
@[simp] theorem endEncode_cbuf (e : Enc) : (endEncode e).cbuf = e.cbuf := rfl
@[simp] theorem endEncode_gbuf (e : Enc) : (endEncode e).gbuf = e.gbuf := rfl
@[simp] theorem endEncode_eout (e : Enc) : (endEncode e).eout = e.eout := rfl

/-! `beginGroup` -/

@[simp] theorem beginGroup_dbusy (d : Dec) : (beginGroup d).dbusy = true := rfl
@[simp] theorem beginGroup_dfail (d : Dec) : (beginGroup d).dfail = false := rfl
@[simp] theorem beginGroup_dccw (d : Dec) : (beginGroup d).dccw = false := rfl
@[simp] theorem beginGroup_dcc (d : Dec) : (beginGroup d).dcc = 0 := rfl
@[simp] theorem beginGroup_pbuf (d : Dec) : (beginGroup d).pbuf = [] := rfl
@[simp] theorem beginGroup_acc (d : Dec) : (beginGroup d).acc = [] := rfl
@[simp] theorem beginGroup_dout (d : Dec) : (beginGroup d).dout = d.dout := rfl

/-! `fail` -/

@[simp] theorem fail_dbusy (d : Dec) : (fail d).dbusy = d.dbusy := rfl
@[simp] theorem fail_dfail (d : Dec) : (fail d).dfail = true := rfl
@[simp] theorem fail_dccw (d : Dec) : (fail d).dccw = d.dccw := rfl
@[simp] theorem fail_dcc (d : Dec) : (fail d).dcc = d.dcc := rfl
@[simp] theorem fail_pbuf (d : Dec) : (fail d).pbuf = [] := rfl
@[simp] theorem fail_acc (d : Dec) : (fail d).acc = [] := rfl
@[simp] theorem fail_dout (d : Dec) : (fail d).dout = d.dout := rfl

/-! `countPacket` -/

@[simp] theorem countPacket_dbusy (P : Bytes) (d : Dec) : (countPacket P d).dbusy = d.dbusy := rfl
@[simp] theorem countPacket_dfail (P : Bytes) (d : Dec) : (countPacket P d).dfail = d.dfail := rfl
@[simp] theorem countPacket_dccw (P : Bytes) (d : Dec) : (countPacket P d).dccw = warnAfter d.dccw (readCounter P) d.dcc := rfl
@[simp] theorem countPacket_dcc (P : Bytes) (d : Dec) : (countPacket P d).dcc = nextCount d.dcc := rfl
@[simp] theorem countPacket_pbuf (P : Bytes) (d : Dec) : (countPacket P d).pbuf = d.pbuf := rfl
@[simp] theorem countPacket_acc (P : Bytes) (d : Dec) : (countPacket P d).acc = d.acc := rfl
@[simp] theorem countPacket_dout (P : Bytes) (d : Dec) : (countPacket P d).dout = d.dout := rfl

/-! `appendContainer` -/

@[simp] theorem appendContainer_dbusy (b : Byte) (d : Dec) : (appendContainer b d).dbusy = d.dbusy := rfl
@[simp] theorem appendContainer_dfail (b : Byte) (d : Dec) : (appendContainer b d).dfail = d.dfail := rfl
@[simp] theorem appendContainer_dccw (b : Byte) (d : Dec) : (appendContainer b d).dccw = d.dccw := rfl
@[simp] theorem appendContainer_dcc (b : Byte) (d : Dec) : (appendContainer b d).dcc = d.dcc := rfl
@[simp] theorem appendContainer_pbuf (b : Byte) (d : Dec) : (appendContainer b d).pbuf = d.pbuf ++ [b] := rfl
@[simp] theorem appendContainer_acc (b : Byte) (d : Dec) : (appendContainer b d).acc = d.acc := rfl
@[simp] theorem appendContainer_dout (b : Byte) (d : Dec) : (appendContainer b d).dout = d.dout := rfl

/-! `endGroup` -/

@[simp] theorem endGroup_dbusy (d : Dec) : (endGroup d).dbusy = false := rfl
@[simp] theorem endGroup_dfail (d : Dec) : (endGroup d).dfail = d.dfail := rfl
@[simp] theorem endGroup_dccw (d : Dec) : (endGroup d).dccw = d.dccw := rfl
@[simp] theorem endGroup_dcc (d : Dec) : (endGroup d).dcc = d.dcc := rfl
@[simp] theorem endGroup_pbuf (d : Dec) : (endGroup d).pbuf = [] := rfl
@[simp] theorem endGroup_acc (d : Dec) : (endGroup d).acc = [] := rfl
@[simp] theorem endGroup_dout (d : Dec) : (endGroup d).dout = d.dout := rfl

end Sys2Proof.Machine
end

