-- ==== Sys2Proof/Laws/Ops.lean ====
section
/-! SUPPORT. For each shared operation, everything it can do, said once. -/

namespace Sys2Proof.Machine

/-- `EmitPacket` (R118): the packet joins `GBUF`, and a full container leaves at once. -/
theorem emitPacket_cases (p : Build) (chid : ChannelId) (last : Bool) (e : Enc) :
    ((pushPacket p chid last e).gbuf.length = p.maxPkts ∧
      emitPacket p chid last e = flushContainer (pushPacket p chid last e)) ∨
    ((pushPacket p chid last e).gbuf.length ≠ p.maxPkts ∧
      emitPacket p chid last e = pushPacket p chid last e) := by
  by_cases h : (pushPacket p chid last e).gbuf.length = p.maxPkts
  · exact .inl ⟨h, by rw [emitPacket, flushIfFull, if_pos h]⟩
  · exact .inr ⟨h, by rw [emitPacket, flushIfFull, if_neg h]⟩

@[simp] theorem emitPacket_ebusy (p : Build) (chid : ChannelId) (last : Bool) (e : Enc) :
    (emitPacket p chid last e).ebusy = e.ebusy := by
  obtain ⟨_, h⟩ | ⟨_, h⟩ := emitPacket_cases p chid last e <;> simp [h]

@[simp] theorem emitPacket_efirst (p : Build) (chid : ChannelId) (last : Bool) (e : Enc) :
    (emitPacket p chid last e).efirst = false := by
  obtain ⟨_, h⟩ | ⟨_, h⟩ := emitPacket_cases p chid last e <;> simp [h]

@[simp] theorem emitPacket_cc (p : Build) (chid : ChannelId) (last : Bool) (e : Enc) :
    (emitPacket p chid last e).cc = nextCount e.cc := by
  obtain ⟨_, h⟩ | ⟨_, h⟩ := emitPacket_cases p chid last e <;> simp [h]

@[simp] theorem emitPacket_cbuf (p : Build) (chid : ChannelId) (last : Bool) (e : Enc) :
    (emitPacket p chid last e).cbuf = [] := by
  obtain ⟨_, h⟩ | ⟨_, h⟩ := emitPacket_cases p chid last e <;> simp [h]

/-- `ENC.PUT` on ENC (R121): the byte is appended, after a full chunk has become a packet. -/
theorem putInput_cases (p : Build) (chid : ChannelId) (b : Byte) (e : Enc) :
    (e.cbuf.length = p.chunkSize ∧ putInput p chid b e = appendInput b (emitPacket p chid false e)) ∨
    (e.cbuf.length ≠ p.chunkSize ∧ putInput p chid b e = appendInput b e) := by
  by_cases h : e.cbuf.length = p.chunkSize
  · exact .inl ⟨h, by rw [putInput, emitFullChunk, if_pos h]⟩
  · exact .inr ⟨h, by rw [putInput, emitFullChunk, if_neg h]⟩

@[simp] theorem putInput_ebusy (p : Build) (chid : ChannelId) (b : Byte) (e : Enc) :
    (putInput p chid b e).ebusy = e.ebusy := by
  obtain ⟨_, h⟩ | ⟨_, h⟩ := putInput_cases p chid b e <;> simp [h]

/-- `ENC.END` on ENC (R122), whatever the state: the packets of `GBUF` and the one made of `CBUF`, if there is one, leave as
one container, or nothing leaves when there are none. -/
theorem finishEncode_cases (p : Build) (chid : ChannelId) (e : Enc) :
    (e.cbuf = [] ∧ e.gbuf = [] ∧ finishEncode p chid e = endEncode e) ∨
    (e.cbuf = [] ∧ e.gbuf ≠ [] ∧ finishEncode p chid e = endEncode (flushContainer e)) ∨
    (e.cbuf ≠ [] ∧ finishEncode p chid e = endEncode (flushContainer (pushPacket p chid true e))) := by
  by_cases hc : e.cbuf = []
  · by_cases hg : e.gbuf = []
    · exact .inl ⟨hc, hg, by simp [finishEncode, emitLastChunk, flushRest, hc, hg]⟩
    · have : 1 ≤ e.gbuf.length := List.length_pos_iff.2 hg
      exact .inr (.inl ⟨hc, hg, by simp [finishEncode, emitLastChunk, flushRest, hc, this]⟩)
  · have h1 : 1 ≤ e.cbuf.length := List.length_pos_iff.2 hc
    refine .inr (.inr ⟨hc, ?_⟩)
    rw [finishEncode, emitLastChunk, if_pos h1]
    obtain ⟨_, h⟩ | ⟨_, h⟩ := emitPacket_cases p chid true e
    · simp [h, flushRest]
    · simp [h, flushRest]

@[simp] theorem finishEncode_ebusy (p : Build) (chid : ChannelId) (e : Enc) : (finishEncode p chid e).ebusy = false := by
  simp [finishEncode]

@[simp] theorem finishEncode_cbuf (p : Build) (chid : ChannelId) (e : Enc) : (finishEncode p chid e).cbuf = [] := by
  obtain ⟨h, _, h'⟩ | ⟨h, _, h'⟩ | ⟨_, h'⟩ := finishEncode_cases p chid e <;> simp [*]

@[simp] theorem finishEncode_gbuf (p : Build) (chid : ChannelId) (e : Enc) : (finishEncode p chid e).gbuf = [] := by
  obtain ⟨_, h, h'⟩ | ⟨_, _, h'⟩ | ⟨_, h'⟩ := finishEncode_cases p chid e <;> simp [*]

/-- `FoldPacket` (R157): the group fails, or the data join `ACC`; the packet is counted either way. -/
theorem foldPacket_cases (p : Build) (P : Bytes) (d : Dec) :
    (readHead p P = none ∧ foldPacket p P d = fail (countPacket P d)) ∨
    (∃ st data, readHead p P = some (st, data) ∧
      foldPacket p P d = { countPacket P d with acc := foldData st data d.acc }) := by
  cases h : readHead p P with
  | none => exact .inl ⟨rfl, by rw [foldPacket, h]⟩
  | some x => exact .inr ⟨x.1, x.2, rfl, by rw [foldPacket, h]⟩

@[simp] theorem foldPacket_dbusy (p : Build) (P : Bytes) (d : Dec) : (foldPacket p P d).dbusy = d.dbusy := by
  obtain ⟨_, h⟩ | ⟨_, _, _, h⟩ := foldPacket_cases p P d <;> simp [h]

@[simp] theorem foldPacket_dcc (p : Build) (P : Bytes) (d : Dec) : (foldPacket p P d).dcc = nextCount d.dcc := by
  obtain ⟨_, h⟩ | ⟨_, _, _, h⟩ := foldPacket_cases p P d <;> simp [h]

@[simp] theorem foldPacket_dccw (p : Build) (P : Bytes) (d : Dec) :
    (foldPacket p P d).dccw = warnAfter d.dccw (readCounter P) d.dcc := by
  obtain ⟨_, h⟩ | ⟨_, _, _, h⟩ := foldPacket_cases p P d <;> simp [h]

@[simp] theorem foldPacket_dout (p : Build) (P : Bytes) (d : Dec) : (foldPacket p P d).dout = d.dout := by
  obtain ⟨_, h⟩ | ⟨_, _, _, h⟩ := foldPacket_cases p P d <;> simp [h]

/-- `DEC.PUT` on DEC (R142): after a failure nothing, before a complete packet the byte is kept, at a complete packet the
packet leaves `PBUF` and is folded. -/
theorem takeContainerByte_cases (p : Build) (b : Byte) (d : Dec) :
    (d.dfail = true ∧ takeContainerByte p b d = d) ∨
    (d.dfail = false ∧ d.pbuf.length + 1 ≠ p.packetSize ∧ takeContainerByte p b d = appendContainer b d) ∨
    (d.dfail = false ∧ d.pbuf.length + 1 = p.packetSize ∧
      takeContainerByte p b d = foldPacket p (d.pbuf ++ [b]) { d with pbuf := [] }) := by
  cases hf : d.dfail with
  | true => exact .inl ⟨rfl, by rw [takeContainerByte, if_pos hf]⟩
  | false =>
    by_cases hl : d.pbuf.length + 1 = p.packetSize
    · exact .inr (.inr ⟨rfl, hl, by
        simp [takeContainerByte, hf, foldIfComplete, hl, appendContainer]⟩)
    · exact .inr (.inl ⟨rfl, hl, by simp [takeContainerByte, hf, foldIfComplete, hl]⟩)

@[simp] theorem takeContainerByte_dbusy (p : Build) (b : Byte) (d : Dec) : (takeContainerByte p b d).dbusy = d.dbusy := by
  obtain ⟨_, h⟩ | ⟨_, _, h⟩ | ⟨_, _, h⟩ := takeContainerByte_cases p b d <;> simp [h]

@[simp] theorem takeContainerByte_dout (p : Build) (b : Byte) (d : Dec) : (takeContainerByte p b d).dout = d.dout := by
  obtain ⟨_, h⟩ | ⟨_, _, h⟩ | ⟨_, _, h⟩ := takeContainerByte_cases p b d <;> simp [h]

/-- The remainder check (R143, R150): a remainder fails a group that has not failed yet. -/
theorem checkRemainder_cases (d : Dec) :
    (d.dfail = false ∧ d.pbuf ≠ [] ∧ checkRemainder d = fail d) ∨
    ((d.dfail = true ∨ d.pbuf = []) ∧ checkRemainder d = d) := by
  by_cases h : d.dfail = false ∧ d.pbuf ≠ []
  · exact .inl ⟨h.1, h.2, if_pos h⟩
  · refine .inr ⟨?_, if_neg h⟩
    cases hf : d.dfail with
    | true => exact .inl rfl
    | false => exact .inr (by_contra fun hp => h ⟨hf, hp⟩)

@[simp] theorem checkRemainder_dbusy (d : Dec) : (checkRemainder d).dbusy = d.dbusy := by
  obtain ⟨_, _, h⟩ | ⟨_, h⟩ := checkRemainder_cases d <;> simp [h]

@[simp] theorem checkRemainder_dccw (d : Dec) : (checkRemainder d).dccw = d.dccw := by
  obtain ⟨_, _, h⟩ | ⟨_, h⟩ := checkRemainder_cases d <;> simp [h]

@[simp] theorem checkRemainder_dout (d : Dec) : (checkRemainder d).dout = d.dout := by
  obtain ⟨_, _, h⟩ | ⟨_, h⟩ := checkRemainder_cases d <;> simp [h]

/-- `DEC.END` on DEC (R144): a group that has failed, or fails here, emits nothing; any other emits its buffer. -/
theorem finishGroup_cases (d : Dec) :
    (d.dfail = false ∧ d.pbuf = [] ∧
      finishGroup d = { d with dbusy := false, acc := [], pbuf := [], dout := d.dout ++ closedRecords d.acc }) ∨
    ((d.dfail = true ∨ d.pbuf ≠ []) ∧
      finishGroup d = { d with dbusy := false, dfail := true, acc := [], pbuf := [] }) := by
  cases hf : d.dfail with
  | true =>
    refine .inr ⟨.inl rfl, ?_⟩
    simp [finishGroup, checkRemainder, hf, deliver, endGroup]
  | false =>
    by_cases hp : d.pbuf = []
    · exact .inl ⟨rfl, hp, by simp [finishGroup, checkRemainder, hf, hp, deliver, endGroup]⟩
    · refine .inr ⟨.inr hp, ?_⟩
      simp [finishGroup, checkRemainder, hf, hp, deliver, endGroup, fail]

@[simp] theorem finishGroup_dccw (d : Dec) : (finishGroup d).dccw = d.dccw := by
  obtain ⟨_, _, h⟩ | ⟨_, h⟩ := finishGroup_cases d <;> simp [h]

@[simp] theorem finishGroup_dbusy (d : Dec) : (finishGroup d).dbusy = false := by
  obtain ⟨_, _, h⟩ | ⟨_, h⟩ := finishGroup_cases d <;> simp [h]

/-- The operand of `CFG.CHID` (R100): refused above `CHID_MAX`, else the number itself. -/
theorem chidOperand_cases (imm16 : BitVec 16) :
    (8191 < imm16.toNat ∧ chidOperand imm16 = none) ∨
    (imm16.toNat ≤ 8191 ∧ chidOperand imm16 = some (imm16.extractLsb' 0 13)) := by
  by_cases h : 8191 < imm16.toNat
  · exact .inl ⟨h, if_pos h⟩
  · exact .inr ⟨by omega, if_neg h⟩

end Sys2Proof.Machine
end

