-- ==== Sys2Proof/Laws/Exec.lean ====
section
/-! SUPPORT. What `exec` and `step` can do, said once: each command answers the state of its pseudocode, and a step is one of
five things. -/

namespace Sys2Proof.Machine

@[simp] theorem exec_cfgChid (v : BitVec 16) (s : State) : exec (.cfgChid v) s = .next (cfgChid v s) := rfl
@[simp] theorem exec_encStart (s : State) : exec .encStart s = .next (encStart s) := rfl
@[simp] theorem exec_encPut (b : Byte) (s : State) : exec (.encPut b) s = .next (encPut Config.build b s) := rfl
@[simp] theorem exec_encEnd (s : State) : exec .encEnd s = .next (encEnd Config.build s) := rfl
@[simp] theorem exec_decStart (s : State) : exec .decStart s = .next (decStart s) := rfl
@[simp] theorem exec_decPut (b : Byte) (s : State) : exec (.decPut b) s = .next (decPut Config.build b s) := rfl
@[simp] theorem exec_decEoc (s : State) : exec .decEoc s = .next (decEoc s) := rfl
@[simp] theorem exec_decEnd (s : State) : exec .decEnd s = .next (decEnd s) := rfl

/-- The cases of `CFG.CHID` (R100). -/
theorem cfgChid_cases (v : BitVec 16) (s : State) :
    (s.enc.ebusy = true ∧ cfgChid v s = raise .illegalCommand s) ∨
    (s.enc.ebusy = false ∧ 8191 < v.toNat ∧ cfgChid v s = raise .configurationError (s.onCfg invalidateChid)) ∨
    (s.enc.ebusy = false ∧ v.toNat ≤ 8191 ∧
      cfgChid v s = respond .ok false (s.onCfg (loadChid (v.extractLsb' 0 13)))) := by
  cases hb : s.enc.ebusy with
  | true => exact .inl ⟨rfl, by simp [cfgChid, hb]⟩
  | false =>
    obtain ⟨hv, h⟩ | ⟨hv, h⟩ := chidOperand_cases v
    · exact .inr (.inl ⟨rfl, hv, by simp [cfgChid, hb, h]⟩)
    · exact .inr (.inr ⟨rfl, hv, by simp [cfgChid, hb, h]⟩)

/-- The cases of `ENC.START` (R120). -/
theorem encStart_cases (s : State) :
    (s.enc.ebusy = true ∧ encStart s = raise .illegalCommand s) ∨
    (s.enc.ebusy = false ∧ s.cfg.chidV = false ∧ encStart s = raise .configurationError s) ∨
    (s.enc.ebusy = false ∧ s.cfg.chidV = true ∧ encStart s = respond .ok false (s.onEnc beginEncode)) := by
  cases hb : s.enc.ebusy <;> cases hv : s.cfg.chidV <;> simp [encStart, hb, hv]

/-- The cases of `ENC.PUT` (R121). -/
theorem encPut_cases (p : Build) (b : Byte) (s : State) :
    (s.enc.ebusy = false ∧ encPut p b s = raise .illegalCommand s) ∨
    (s.enc.ebusy = true ∧ encPut p b s = respond .ok false (s.onEnc (putInput p s.cfg.chid b))) := by
  cases hb : s.enc.ebusy <;> simp [encPut, hb]

/-- The cases of `ENC.END` (R122). -/
theorem encEnd_cases (p : Build) (s : State) :
    (s.enc.ebusy = false ∧ encEnd p s = raise .illegalCommand s) ∨
    (s.enc.ebusy = true ∧ encEnd p s = respond .ok false (s.onEnc (finishEncode p s.cfg.chid))) := by
  cases hb : s.enc.ebusy <;> simp [encEnd, hb]

/-- The cases of `DEC.START` (R141). -/
theorem decStart_cases (s : State) :
    (s.dec.dbusy = true ∧ decStart s = raise .illegalCommand s) ∨
    (s.dec.dbusy = false ∧ decStart s = respond .ok false (s.onDec beginGroup)) := by
  cases hb : s.dec.dbusy <;> simp [decStart, hb]

/-- The cases of `DEC.PUT` (R142). -/
theorem decPut_cases (p : Build) (b : Byte) (s : State) :
    (s.dec.dbusy = false ∧ decPut p b s = raise .illegalCommand s) ∨
    (s.dec.dbusy = true ∧ decPut p b s = respondGroup (s.onDec (takeContainerByte p b))) := by
  cases hb : s.dec.dbusy <;> simp [decPut, hb]

/-- The cases of `DEC.EOC` (R143). -/
theorem decEoc_cases (s : State) :
    (s.dec.dbusy = false ∧ decEoc s = raise .illegalCommand s) ∨
    (s.dec.dbusy = true ∧ decEoc s = respondGroup (s.onDec checkRemainder)) := by
  cases hb : s.dec.dbusy <;> simp [decEoc, hb]

/-- The cases of `DEC.END` (R144). -/
theorem decEnd_cases (s : State) :
    (s.dec.dbusy = false ∧ decEnd s = raise .illegalCommand s) ∨
    (s.dec.dbusy = true ∧ decEnd s = respondGroup (s.onDec finishGroup)) := by
  cases hb : s.dec.dbusy <;> simp [decEnd, hb]

/-- A step is one of five things: nothing is presented, a record is taken, a reset, a command, an illegal encoding. -/
theorem step_cases {s t : State} (h : step s = .next t) :
    (s.host.pending = [] ∧ t = s) ∨
    (∃ ch rest, s.host.pending = .take ch :: rest ∧ t = dropEvent rest s) ∨
    (∃ rest, s.host.pending = .reset :: rest ∧ t = resetEvent (dropEvent rest s)) ∨
    (∃ w rest i, s.host.pending = .command w :: rest ∧ decode w = .command i ∧
      exec i (takeCommand rest s) = .next t) ∨
    (∃ w rest why, s.host.pending = .command w :: rest ∧ decode w = .illegal why ∧
      t = illegalEncoding (takeCommand rest s)) := by
  unfold step at h
  split at h
  · exact .inl ⟨‹_›, by simpa [idle] using h.symm⟩
  · exact .inr (.inl ⟨_, _, ‹_›, by simpa [takeRecord] using h.symm⟩)
  · exact .inr (.inr (.inl ⟨_, ‹_›, by simpa using h.symm⟩))
  · split at h
    · exact .inr (.inr (.inr (.inl ⟨_, _, _, ‹_›, ‹_›, h⟩)))
    · exact .inr (.inr (.inr (.inr ⟨_, _, _, ‹_›, ‹_›, by simpa using h.symm⟩)))

/-- A run of one step and then `n` more. -/
theorem runSteps_succ {n : Nat} {s t : State} (h : step s = .next t) : runSteps (n + 1) s = runSteps n t := by
  simp only [runSteps, h]

end Sys2Proof.Machine
end

