-- ==== Sys2Proof/Laws/Function.lean ====
section
/-! SUPPORT. Laws of the function level: cutting a sequence into pieces of `k` elements, which both the slicer (R111) and
the grouper (R124) do, and the packets of an encode by index. -/

namespace Sys2Proof.Machine

theorem slice_min {α : Type} (l : List α) (a b : Nat) : slice l a (min b l.length) = slice l a b := by
  unfold slice
  rcases Nat.le_total b l.length with h | h
  · rw [Nat.min_eq_left h]
  · rw [Nat.min_eq_right h, List.take_of_length_le (by simp), List.take_of_length_le (by simp; omega)]

theorem ceilDiv_zero {b : Nat} (hb : 0 < b) : ceilDiv 0 b = 0 := by
  unfold ceilDiv; exact Nat.div_eq_of_lt (by omega)

theorem ceilDiv_pos {a b : Nat} (hb : 0 < b) (h : 0 < a) : ceilDiv a b = (a - 1) / b + 1 := by
  unfold ceilDiv
  rw [show a + b - 1 = (a - 1) + b by omega, Nat.add_div_right _ hb]

theorem ceilDiv_step {n k : Nat} (hk : 0 < k) (hn : 0 < n) : ceilDiv n k = ceilDiv (n - k) k + 1 := by
  rcases Nat.lt_or_ge k n with h | h
  · rw [ceilDiv_pos hk hn, ceilDiv_pos hk (by omega)]
    rw [show n - 1 = (n - k - 1) + k by omega, Nat.add_div_right _ hk]
  · rw [ceilDiv_pos hk hn, show n - k = 0 by omega, ceilDiv_zero hk, Nat.div_eq_of_lt (by omega)]

/-- A sequence cut every `k` elements, the last piece possibly shorter. -/
def pieces {α : Type} (l : List α) (k : Nat) : List (List α) :=
  (List.range (ceilDiv l.length k)).map (fun i => slice l (i * k) (min ((i + 1) * k) l.length))

theorem groupPackets_eq_pieces (p : Build) (pkts : List Bytes) : groupPackets p pkts = pieces pkts p.maxPkts := rfl

theorem chunks_eq_pieces (p : Build) (input : Bytes) :
    (List.range (chunkCount p input)).map (chunkAt p input) = pieces input p.chunkSize := rfl

@[simp] theorem pieces_length {α : Type} (l : List α) (k : Nat) : (pieces l k).length = ceilDiv l.length k := by
  simp [pieces]

theorem pieces_nil {α : Type} {k : Nat} (hk : 0 < k) : pieces ([] : List α) k = [] := by
  simp [pieces, ceilDiv_zero hk]

theorem pieces_of_ne_nil {α : Type} {l : List α} {k : Nat} (hk : 0 < k) (hl : l ≠ []) :
    pieces l k = l.take k :: pieces (l.drop k) k := by
  have : 0 < l.length := List.length_pos_iff.2 hl
  unfold pieces
  rw [ceilDiv_step hk this, List.range_succ_eq_map]
  simp only [List.map_cons, List.map_map, slice_min, List.length_drop]
  congr 1
  · simp [slice]
  · apply List.map_congr_left
    intro i _
    have := slice_min (l.drop k) (i * k) ((i + 1) * k)
    rw [List.length_drop] at this
    simp only [Function.comp, this]
    simp only [slice, List.drop_drop, Nat.succ_eq_add_one]
    congr 1
    · rw [Nat.add_mul (i + 1) 1 k, Nat.add_mul i 1 k]; omega
    · rw [Nat.add_mul, Nat.one_mul, Nat.add_comm k]

theorem pieces_getElem? {α : Type} {l g : List α} {k j : Nat} (h : (pieces l k)[j]? = some g) :
    g = (l.drop (j * k)).take k ∧ j < ceilDiv l.length k := by
  simp only [pieces, slice_min, List.getElem?_map, Option.map_eq_some_iff] at h
  obtain ⟨a, b, rfl⟩ := h
  obtain ⟨hj, rfl⟩ := List.getElem?_eq_some_iff.1 b
  simp only [List.length_range] at hj
  exact ⟨by simp [slice, Nat.add_mul], hj⟩

/-- Piece `j` starts inside the sequence. -/
theorem mul_lt_of_lt_ceilDiv {n k j : Nat} (hk : 0 < k) (hj : j < ceilDiv n k) : j * k < n := by
  rcases Nat.eq_zero_or_pos n with h | h
  · subst h; rw [ceilDiv_zero hk] at hj; omega
  · rw [ceilDiv_pos hk h] at hj
    have := (Nat.le_div_iff_mul_le hk).1 (show j ≤ (n - 1) / k by omega)
    omega

/-- The last piece ends at the end of the sequence. -/
theorem le_mul_of_succ_eq_ceilDiv {n k j : Nat} (hk : 0 < k) (hj : j + 1 = ceilDiv n k) : n ≤ (j + 1) * k := by
  rcases Nat.eq_zero_or_pos n with h | h
  · omega
  · rw [ceilDiv_pos hk h] at hj
    have e : (n - 1) / k = j := by omega
    have := Nat.lt_div_mul_add hk (a := n - 1)
    rw [e] at this
    rw [Nat.add_mul]; omega

theorem chunkAt_eq (p : Build) (input : Bytes) (i : Nat) :
    chunkAt p input i = (input.drop (i * p.chunkSize)).take p.chunkSize := by
  simp only [chunkAt, slice_min]
  simp [slice, Nat.add_mul]

@[simp] theorem packetsOf_length (p : Build) (input : Bytes) (chid : ChannelId) :
    (packetsOf p input chid).length = chunkCount p input := by simp [packetsOf]

theorem packetsOf_getElem? {p : Build} {input P : Bytes} {chid : ChannelId} {i : Nat}
    (h : (packetsOf p input chid)[i]? = some P) : P = packetAt p input chid i ∧ i < chunkCount p input := by
  simp only [packetsOf, List.getElem?_map, Option.map_eq_some_iff] at h
  obtain ⟨a, b, rfl⟩ := h
  obtain ⟨hi, rfl⟩ := List.getElem?_eq_some_iff.1 b
  simp only [List.length_range] at hi
  simpa using hi

theorem packetAt_length (p : Build) (input : Bytes) (chid : ChannelId) (i : Nat) (hp : p.wf = true) :
    (packetAt p input chid i).length = p.packetSize := by
  apply buildPacket_length _ _ _ _ _ hp
  rw [chunkAt_eq]; simp

theorem byteAt_append_left (a b : Bytes) (i : Nat) (h : i < a.length) : byteAt (a ++ b) i = byteAt a i := by
  simp [byteAt, List.getD, List.getElem?_append_left h]

end Sys2Proof.Machine
end

