-- ==== Sys2Proof/Laws/PerInstr.lean ====
section
/-! SUPPORT. Statements made of every command one by one. -/

namespace Sys2Proof.Laws.EncodingRow

/-- The word of a command has the `OP` of its row of the command table, and `RSV` = 0 (R77, R78). -/
def Statement (i : Instr) : Prop :=
  (∃ r ∈ opcodeTable, r.mnemonic = i.mnemonic ∧ opField (encode i) = opField r.matchBits) ∧ rsvField (encode i) = 0

theorem cfgChid (imm16 : BitVec 16) : Statement (.cfgChid imm16) :=
  ⟨⟨_, .head _, rfl, opField_packWord ..⟩, rsvField_packWord ..⟩

theorem encStart : Statement .encStart :=
  ⟨⟨_, .tail _ (.head _), rfl, opField_packWord ..⟩, rsvField_packWord ..⟩

theorem encPut (imm8 : Byte) : Statement (.encPut imm8) :=
  ⟨⟨_, .tail _ (.tail _ (.head _)), rfl, opField_packWord ..⟩, rsvField_packWord ..⟩

theorem encEnd : Statement .encEnd :=
  ⟨⟨_, .tail _ (.tail _ (.tail _ (.head _))), rfl, opField_packWord ..⟩, rsvField_packWord ..⟩

theorem decStart : Statement .decStart :=
  ⟨⟨_, .tail _ (.tail _ (.tail _ (.tail _ (.head _)))), rfl, opField_packWord ..⟩, rsvField_packWord ..⟩

theorem decPut (imm8 : Byte) : Statement (.decPut imm8) :=
  ⟨⟨_, .tail _ (.tail _ (.tail _ (.tail _ (.tail _ (.head _))))), rfl, opField_packWord ..⟩, rsvField_packWord ..⟩

theorem decEoc : Statement .decEoc :=
  ⟨⟨_, .tail _ (.tail _ (.tail _ (.tail _ (.tail _ (.tail _ (.head _)))))), rfl, opField_packWord ..⟩,
    rsvField_packWord ..⟩

theorem decEnd : Statement .decEnd :=
  ⟨⟨_, .tail _ (.tail _ (.tail _ (.tail _ (.tail _ (.tail _ (.tail _ (.head _))))))), rfl, opField_packWord ..⟩,
    rsvField_packWord ..⟩

end Sys2Proof.Laws.EncodingRow
end

