-- ==== Sys2Proof/Tests/Slice0.lean ====
section
/-! SUPPORT. The model's own tests: what is refused before a run, words written out from the spec's encodings, the spec's
worked examples and vectors (95_test_vectors.md), and a witness for the hypotheses of every statement. -/

namespace Sys2Proof.Tests

open Sys2Proof Sys2Proof.Machine

/-! ## Helper states -/

/-- `CHID` = 0x30 loaded, nothing in progress. -/
def configured : State := { State.reset with cfg := { chid := 0x30, chidV := true } }

/-- An encode just begun on channel 0x30. -/
def encoding : State := { configured with enc := { State.reset.enc with ebusy := true } }

/-- `encoding` with these bytes collected and these packets waiting. -/
def encodingWith (cbuf : Bytes) (gbuf : List Bytes) : State :=
  { encoding with enc := { encoding.enc with cbuf := cbuf, gbuf := gbuf } }

/-- A group decode just begun. -/
def decoding : State := { State.reset with dec := { State.reset.dec with dbusy := true } }

/-- `decoding` with these bytes of a packet collected. -/
def decodingWith (pbuf : Bytes) : State := { decoding with dec := { decoding.dec with pbuf := pbuf } }

/-- A group decode that has failed. -/
def failedDecoding : State := { decoding with dec := { decoding.dec with dfail := true } }

/-- A packet of channel 0x30 with data byte 0x5A, by its bytes 3, 4, 6 and 7 (vector B1 and its variants). -/
def packetOf (b3 b4 b6 b7 : Byte) : Bytes := [0x47, 0x40, 0x30, b3, b4, 0x00, b6, b7, 0x5A] ++ List.replicate 179 0xFF

/-- `s` when HOST is about to present word `w`. -/
def offering (w : Word) (s : State) : State := { s with host := { s.host with pending := [.command w] } }

/-! ## What is refused before a run (R6, R7, R86, R87) -/

theorem test_build_564_accepted : Build.wf { packetSize := 188, containerSizeCap := 564 } = true := by decide
theorem test_build_without_chunk_refused : Build.wf { packetSize := 8, containerSizeCap := 564 } = false := by decide
theorem test_build_long_chunk_refused : Build.wf { packetSize := 65544, containerSizeCap := 70000 } = false := by decide
theorem test_build_longest_chunk_accepted : Build.wf { packetSize := 65543, containerSizeCap := 70000 } = true := by decide
theorem test_build_small_cap_refused : Build.wf { packetSize := 188, containerSizeCap := 187 } = false := by decide
theorem test_line_missing_operand_refused : AsmLine.wf (.command .encPut none) = false := by decide
theorem test_line_superfluous_operand_refused : AsmLine.wf (.command .encEnd (some 0)) = false := by decide
theorem test_line_wide_channel_refused : AsmLine.wf (.command .cfgChid (some 65536)) = false := by decide
theorem test_line_channel_8192_accepted : AsmLine.wf (.command .cfgChid (some 8192)) = true := by decide
theorem test_line_wide_encoder_byte_refused : AsmLine.wf (.command .encPut (some 256)) = false := by decide
theorem test_line_wide_decoder_byte_refused : AsmLine.wf (.command .decPut (some 256)) = false := by decide
theorem test_line_empty_encoder_data_refused : AsmLine.wf (.encData []) = false := by decide
theorem test_line_empty_decoder_data_refused : AsmLine.wf (.decData []) = false := by decide
theorem test_line_wide_encoder_data_refused : AsmLine.wf (.encData [0, 256]) = false := by decide
theorem test_line_wide_decoder_data_refused : AsmLine.wf (.decData [256, 0]) = false := by decide
theorem test_line_wide_encoder_fill_refused : AsmLine.wf (.encFill 256 3) = false := by decide
theorem test_line_wide_decoder_fill_refused : AsmLine.wf (.decFill 256 3) = false := by decide
/-- The model's choice, not the spec's (log entry 13). -/
theorem test_line_wide_empty_fill_refused : AsmLine.wf (.encFill 256 0) = false ∧ AsmLine.wf (.decFill 256 0) = false := by
  decide
theorem test_line_empty_fill_accepted : AsmLine.wf (.encFill 255 0) = true := by decide

/-! ## Words written out bit by bit from R77 to R79 -/

theorem test_decode_cfg_chid :
    decode 0b00000001_00000000_0001111111111111 = .command (.cfgChid 0x1FFF) := by decide
theorem test_decode_enc_start : decode 0b00010000_00000000_0000000000000000 = .command .encStart := by decide
theorem test_decode_enc_put : decode 0b00010001_00000000_00000000_10101011 = .command (.encPut 0xAB) := by decide
theorem test_decode_enc_end : decode 0b00010010_00000000_0000000000000000 = .command .encEnd := by decide
theorem test_decode_dec_start : decode 0b00100000_00000000_0000000000000000 = .command .decStart := by decide
theorem test_decode_dec_put : decode 0b00100001_00000000_00000000_01000111 = .command (.decPut 0x47) := by decide
theorem test_decode_dec_eoc : decode 0b00100010_00000000_0000000000000000 = .command .decEoc := by decide
theorem test_decode_dec_end : decode 0b00100011_00000000_0000000000000000 = .command .decEnd := by decide

/-- The unused operation codes of 95_test_vectors.md section 2.8. -/
theorem test_decode_unused_op :
    decode 0x00000000 = .illegal .unusedOp ∧ decode 0xFFFFFFFF = .illegal .unusedOp ∧
    decode 0x02000000 = .illegal .unusedOp ∧ decode 0x13000000 = .illegal .unusedOp ∧
    decode 0x24000000 = .illegal .unusedOp ∧ decode 0x1F000000 = .illegal .unusedOp := by decide

/-- The other illegal words of the same table. -/
theorem test_decode_illegal_fields :
    decode 0x10000001 = .illegal .unusedOperandBits ∧ decode 0x12008000 = .illegal .unusedOperandBits ∧
    decode 0x20000001 = .illegal .unusedOperandBits ∧ decode 0x22000001 = .illegal .unusedOperandBits ∧
    decode 0x23FFFF00 = .illegal .reservedBits ∧ decode 0x11000100 = .illegal .wideByteOperand ∧
    decode 0x21000100 = .illegal .wideByteOperand ∧ decode 0x11010022 = .illegal .reservedBits ∧
    decode 0x01010030 = .illegal .reservedBits := by decide

theorem test_table_word : decodeTableWord 32 0x110000AB = some (.encPut 0xAB) ∧ decodeTableWord 32 0x10000001 = none := by
  decide

/-! ## The data formats (95_test_vectors.md section 2.1, R72, R74) -/

theorem test_pack_header :
    packHeader 0x1234 9 = [0x47, 0x52, 0x34, 0x19] ∧ packHeader 0x0100 7 = [0x47, 0x41, 0x00, 0x17] := by decide
theorem test_unpack_header : unpackHeader [0x00, 0xFF, 0xFF, 0xE0] =
    { syncf := 0, erri := 1, pstart := 1, prio := 1, chidf := 0x1FFF, scr := 3, afc := 2, ccf := 0 } := by decide
/-- Packet 1 of the scenario of section 1.1: `47 40 30 11 02 00 00 14`, the data, the stuffing. -/
theorem test_build_packet :
    buildPacket { packetSize := 188, containerSizeCap := 376 } 0x30 1 .last (List.replicate 20 0xAB) =
      [0x47, 0x40, 0x30, 0x11, 0x02, 0x00, 0x00, 0x14] ++ List.replicate 20 0xAB ++ List.replicate 160 0xFF := by
  decide +kernel

/-! ## The commands, one step each (worked examples of R100, R120 to R122, R141 to R144; vectors of sections 2.2, 2.7) -/

theorem test_cfg_chid_loads :
    cfgChid 0x0030 State.reset = { State.reset with cfg := { chid := 0x30, chidV := true }, rsp := [0x00] } := by decide
theorem test_cfg_chid_invalidates : (cfgChid 0x2000 configured).cfg.chidV = false ∧ (cfgChid 0x2000 configured).rsp = [0x01] := by
  decide
theorem test_enc_start_begins : (encStart configured).enc = encoding.enc ∧ (encStart configured).rsp = [0x00] := by decide
theorem test_enc_start_needs_channel : encStart State.reset = { State.reset with rsp := [0x01] } := by decide
theorem test_enc_put_appends :
    encPut Config.build 0xAB encoding = { encodingWith [0xAB] [] with rsp := [0x00] } := by rfl
/-- The 181st byte builds packet 0 as first, which waits in `GBUF` (program P2). -/
theorem test_enc_put_builds_packet :
    let t := encPut { packetSize := 188, containerSizeCap := 1000 } 0xAB (encodingWith (List.replicate 180 0xAB) [])
    t.enc.cbuf = [0xAB] ∧ t.enc.cc = 1 ∧ t.enc.efirst = false ∧ t.enc.eout = [] ∧
    t.enc.gbuf = [[0x47, 0x40, 0x30, 0x10, 0x00, 0x00, 0x00, 0xB4] ++ List.replicate 180 0xAB] := by decide +kernel
theorem test_enc_end_emits :
    let t := encEnd { packetSize := 188, containerSizeCap := 564 } (encodingWith [0x5A] [])
    t.enc.eout = [0x047, 0x040, 0x030, 0x010, 0x000, 0x000, 0x000, 0x001, 0x05A] ++ List.replicate 179 0x0FF ++ [0x100] ∧
    t.enc.ebusy = false ∧ t.enc.cc = 1 ∧ t.enc.efirst = false ∧ t.rsp = [0x00] := by decide +kernel
theorem test_enc_end_needs_encode : encEnd Config.build configured = { configured with rsp := [0x03] } := by rfl
theorem test_dec_start_begins : decStart State.reset = { decoding with rsp := [0x00] } := by decide
theorem test_dec_start_refuses_second : decStart decoding = { decoding with rsp := [0x03] } := by decide
theorem test_dec_put_appends : decPut Config.build 0x47 decoding = { decodingWith [0x47] with rsp := [0x00] } := by rfl
/-- Vector D14 at its last byte: wrong counter and bad status in one packet. -/
theorem test_dec_put_fails_with_warning :
    let t := decPut { packetSize := 188, containerSizeCap := 188 } 0xFF (decodingWith ((packetOf 0x11 0x09 0 1).take 187))
    t.rsp = [0x06] ∧ t.dec.dfail = true ∧ t.dec.dccw = true ∧ t.dec.dcc = 1 ∧ t.dec.acc = [] ∧ t.dec.pbuf = [] := by
  decide +kernel
theorem test_dec_eoc_remainder :
    let t := decEoc (decodingWith (List.replicate 187 0x47))
    t.dec = failedDecoding.dec ∧ t.rsp = [0x02] := by decide +kernel
theorem test_dec_eoc_warned : (decEoc { decoding with dec := { decoding.dec with pbuf := [1], dccw := true } }).rsp = [0x06] := by
  decide
theorem test_dec_end_delivers :
    let t := decEnd { decoding with dec := { decoding.dec with acc := [0x5A] } }
    t.dec.dout = [0x05A, 0x100] ∧ t.dec.dbusy = false ∧ t.dec.acc = [] ∧ t.rsp = [0x00] := by decide
theorem test_dec_end_failed : (decEnd failedDecoding).dec.dout = [] ∧ (decEnd failedDecoding).rsp = [0x02] := by decide

/-- Vector K8: the sequence check comes before the operand check (R176). -/
theorem test_sequence_before_operand :
    step (offering 0x0100FFFF encoding) =
      .next { encoding with rsp := [0x03], host := { pending := [], cmdIndex := 1, rspBase := 0 } } := by rfl
/-- 0x10000001 with `CHID_V = 0`: the encoding check comes before the command's own (R176). -/
theorem test_encoding_before_sequence :
    step (offering 0x10000001 State.reset) =
      .next { State.reset with rsp := [0x03], host := { pending := [], cmdIndex := 1, rspBase := 0 } } := by rfl

/-! ## The assembler (R86, R87) -/

theorem test_assemble_source :
    assembleSource "CFG.CHID 0x30 ; channel\n\nENC.START\nENC.DATA 1 0xfe\nDEC.FILL 7, 2\nENC.FILL 1, 0".toList =
      some [0x01000030, 0x10000000, 0x11000001, 0x110000FE, 0x21000007, 0x21000007] := by decide +kernel
theorem test_assemble_refuses :
    assembleSource "enc.start".toList = none ∧ assembleSource "ENC.PUT".toList = none ∧
    assembleSource "ENC.PUT 256".toList = none ∧ assembleSource "ENC.START 0".toList = none ∧
    assembleSource "ENC.DATA".toList = none := by decide +kernel

/-! ## Witnesses: encoding -/

theorem witness_DecodeEncodeAgree : decode 0x0100FFFF = .command (.cfgChid 0xFFFF) ∧ decode 0x210000FF = .command (.decPut 0xFF) := by
  decide

/-- Each row accepts a word; one word accepted by two rows taken as equal; a word no row accepts; a word that decodes. -/
theorem witness_DecodeFollowsCommandTable :
    (∀ r ∈ opcodeTable, r.accepts r.matchBits = true) ∧
    (∃ r ∈ opcodeTable, ∃ r' ∈ opcodeTable, r.accepts 0x0100FFFF = true ∧ r'.accepts 0x0100FFFF = true) ∧
    (∀ r ∈ opcodeTable, r.accepts 0x02000000 = false) ∧ decode 0x01000000 = .command (.cfgChid 0) := by decide

/-- A word of each case of R80, waiting to be taken. -/
theorem witness_IllegalEncodingsAreTheFourCases :
    ∀ w ∈ ([0x02000000, 0x01010030, 0x12008000, 0x11000100] : List Word),
      (offering w State.reset).host.pending = .command w :: [] ∧ ∃ why, decode w = .illegal why := by
  intro w hw
  fin_cases hw
  exacts [⟨rfl, .unusedOp, by decide⟩, ⟨rfl, .reservedBits, by decide⟩, ⟨rfl, .unusedOperandBits, by decide⟩,
    ⟨rfl, .wideByteOperand, by decide⟩]

theorem witness_AssemblerGivesTheWordsOfTheLine :
    AsmLine.wf (.command .cfgChid (some 65535)) = true ∧ AsmLine.wf (.command .encPut (some 255)) = true ∧
    AsmLine.wf (.command .decEnd none) = true ∧ AsmLine.wf (.encData [0, 255]) = true ∧
    AsmLine.wf (.decFill 255 0) = true ∧ AsmLine.wf (.command .cfgChid (some 65536)) = false ∧
    (∃ r ∈ opcodeTable, (AsmLine.command r.mnemonic (some 8192)).wf = true) := by decide

/-! ## Witnesses: steps -/

theorem witness_StepRunsTheDecodedCommand :
    (offering 0x110000AB encoding).host.pending = .command 0x110000AB :: [] ∧ decode 0x110000AB = .command (.encPut 0xAB) := by
  decide

theorem witness_IdleAndTakenRecordsChangeNothing :
    State.reset.host.pending = [] ∧
    ({ State.reset with host := { State.reset.host with pending := [.take .eout] } } : State).host.pending =
      .take .eout :: [] := by decide

/-- A command's step, and steps that are no command's. -/
theorem witness_EveryCommandIsAnsweredOnce :
    (∃ t, step (offering 0x10000000 State.reset) = .next t) ∧
    (∃ t, step State.reset = .next t) ∧ (∀ w rest, State.reset.host.pending ≠ .command w :: rest) :=
  ⟨⟨_, rfl⟩, ⟨_, rfl⟩, fun _ _ h => by cases h⟩

/-! ## Witnesses: the commands, a state for each clause, at the boundary of its range -/

theorem witness_CfgChidFollowsItsRule :
    encoding.enc.ebusy = true ∧ configured.enc.ebusy = false ∧ 8191 < (8192 : BitVec 16).toNat ∧
    (8191 : BitVec 16).toNat ≤ 8191 := by decide

theorem witness_EncStartFollowsItsRule :
    encoding.enc.ebusy = true ∧ (State.reset.enc.ebusy = false ∧ State.reset.cfg.chidV = false) ∧
    (configured.enc.ebusy = false ∧ configured.cfg.chidV = true) := by decide

theorem witness_EncPutFollowsItsRule :
    configured.enc.ebusy = false ∧
    ((encodingWith (List.replicate 179 0) []).enc.ebusy = true ∧
      (encodingWith (List.replicate 179 0) []).enc.cbuf.length ≠ 180) ∧
    ((encodingWith (List.replicate 180 0) []).enc.ebusy = true ∧
      (encodingWith (List.replicate 180 0) []).enc.cbuf.length = 180) := by
  refine ⟨rfl, ⟨rfl, ?_⟩, rfl, ?_⟩
  · show (List.replicate 179 (0 : Byte)).length ≠ 180
    rw [List.length_replicate]; decide
  · exact List.length_replicate ..

/-- The two last clauses of `ENC.PUT`: one packet short of a full container before the byte, and not. -/
theorem witness_EncPutFollowsItsRule_full :
    (List.replicate (Config.build.maxPkts - 1) ([] : Bytes) ++ [[]]).length = Config.build.containerSizeCap / 188 ∧
    (List.replicate Config.build.maxPkts ([] : Bytes) ++ [[]]).length ≠ Config.build.containerSizeCap / 188 := by
  have := Build.maxPkts_pos _ Config.build_wf
  rw [← Config.build_maxPkts]
  simp; omega

theorem witness_EncEndFollowsItsRule :
    configured.enc.ebusy = false ∧ (encoding.enc.ebusy = true ∧ encoding.enc.cbuf = [] ∧ encoding.enc.gbuf = []) ∧
    ((encodingWith [] [[1]]).enc.ebusy = true ∧ (encodingWith [] [[1]]).enc.cbuf = [] ∧ (encodingWith [] [[1]]).enc.gbuf ≠ []) ∧
    ((encodingWith [1] []).enc.ebusy = true ∧ (encodingWith [1] []).enc.cbuf ≠ []) := by decide

theorem witness_DecStartFollowsItsRule : decoding.dec.dbusy = true ∧ State.reset.dec.dbusy = false := by decide

theorem witness_DecPutFollowsItsRule :
    State.reset.dec.dbusy = false ∧ (failedDecoding.dec.dbusy = true ∧ failedDecoding.dec.dfail = true) ∧
    ((decodingWith (List.replicate 186 0)).dec.dbusy = true ∧ (decodingWith (List.replicate 186 0)).dec.dfail = false ∧
      (decodingWith (List.replicate 186 0)).dec.pbuf.length + 1 ≠ 188) ∧
    ((decodingWith (List.replicate 187 0)).dec.dbusy = true ∧ (decodingWith (List.replicate 187 0)).dec.dfail = false ∧
      (decodingWith (List.replicate 187 0)).dec.pbuf.length + 1 = 188) := by decide +kernel

/-- The completed packets of the last clauses: `STATUS` 3 and 2, `LEN` 181 and 180, the right counter and a wrong one. -/
theorem witness_DecPutFollowsItsRule_packet :
    (∀ P ∈ [packetOf 0x10 3 0 1, packetOf 0x10 0 0 181, packetOf 0x10 2 0 180, packetOf 0x11 0 0 180],
      P = P.take 187 ++ [0xFF] ∧ (P.take 187).length + 1 = 188) ∧
    2 < (byteAt (packetOf 0x10 3 0 1) 4).toNat ∧
    180 < (byteAt (packetOf 0x10 0 0 181) 6).toNat * 256 + (byteAt (packetOf 0x10 0 0 181) 7).toNat ∧
    (byteAt (packetOf 0x10 2 0 180) 4).toNat ≤ 2 ∧
    (byteAt (packetOf 0x10 2 0 180) 6).toNat * 256 + (byteAt (packetOf 0x10 2 0 180) 7).toNat ≤ 180 ∧
    (byteAt (packetOf 0x10 2 0 180) 3).toNat % 16 = decoding.dec.dcc.toNat ∧
    (byteAt (packetOf 0x11 0 0 180) 3).toNat % 16 ≠ decoding.dec.dcc.toNat := by decide +kernel

theorem witness_DecEocFollowsItsRule :
    State.reset.dec.dbusy = false ∧ (failedDecoding.dec.dbusy = true ∧ failedDecoding.dec.dfail = true) ∧
    (decoding.dec.dbusy = true ∧ decoding.dec.dfail = false ∧ decoding.dec.pbuf = []) ∧
    ((decodingWith [1]).dec.dbusy = true ∧ (decodingWith [1]).dec.dfail = false ∧ (decodingWith [1]).dec.pbuf ≠ []) := by decide

theorem witness_DecEndFollowsItsRule :
    State.reset.dec.dbusy = false ∧ (decoding.dec.dbusy = true ∧ decoding.dec.dfail = false ∧ decoding.dec.pbuf = []) ∧
    (failedDecoding.dec.dbusy = true ∧ failedDecoding.dec.dfail = true) ∧
    ((decodingWith [1]).dec.dbusy = true ∧ (decodingWith [1]).dec.pbuf ≠ []) := by decide

/-! ## Witnesses: the procedures -/

/-- `EmitPacket` with chunks of 1 and `CHUNK_SIZE` bytes, first, last and middle, with and without a full container. -/
theorem witness_EmitPacketFollowsItsRule :
    let p : Build := { packetSize := 188, containerSizeCap := 376 }
    let e : Enc := { encoding.enc with cbuf := [1] }
    let e' : Enc := { e with efirst := false, cbuf := List.replicate 180 1, gbuf := [[]] }
    (e.ebusy = true ∧ 1 ≤ e.cbuf.length ∧ e.cbuf.length ≤ p.chunkSize ∧ e.efirst = true ∧ (e.gbuf ++ [[]]).length ≠ p.maxPkts) ∧
    (e'.ebusy = true ∧ 1 ≤ e'.cbuf.length ∧ e'.cbuf.length ≤ p.chunkSize ∧ e'.efirst = false ∧
      (e'.gbuf ++ [[]]).length = p.maxPkts) := by decide +kernel

theorem witness_FlushContainerFollowsItsRule :
    let p : Build := { packetSize := 10, containerSizeCap := 20 }
    let P : Bytes := List.replicate 10 1
    (1 ≤ [P].length ∧ [P].length ≤ p.maxPkts ∧ ∀ Q ∈ [P], Q.length = p.packetSize) ∧
    ([P, P].length = p.maxPkts ∧ ∀ Q ∈ [P, P], Q.length = p.packetSize) := by decide

/-- Two different packets that agree on what DEC looks at (the packet of vector D13 and the good one). -/
theorem witness_FoldIgnoresEverythingElse :
    let P := packetOf 0x10 0 0 1
    let Q : Bytes := [0x00, 0xFF, 0xFF, 0xE0, 0x00, 0x77, 0x00, 0x01, 0x5A] ++ List.replicate 179 0x00
    P ≠ Q ∧ P.length = 188 ∧ Q.length = 188 ∧ (byteAt P 3).toNat % 16 = (byteAt Q 3).toNat % 16 ∧
    byteAt P 4 = byteAt Q 4 ∧ byteAt P 6 = byteAt Q 6 ∧ byteAt P 7 = byteAt Q 7 ∧
    (byteAt P 6).toNat * 256 + (byteAt P 7).toNat = 1 ∧ byteAt P 8 = byteAt Q 8 := by decide +kernel

/-! ## Witnesses: errors and responses -/

/-- A command for each value of `CODE`, one with the warning, and an illegal word. -/
theorem witness_ResponseRecordFollowsItsRule :
    (∃ t, step (offering 0x10000000 configured) = .next t ∧ t.rsp = [0x00]) ∧
    (∃ t, step (offering 0x10000000 State.reset) = .next t ∧ t.rsp = [0x01]) ∧
    (∃ t, step (offering 0x22000000 failedDecoding) = .next t ∧ t.rsp = [0x02]) ∧
    (∃ t, step (offering 0x23000000 State.reset) = .next t ∧ t.rsp = [0x03]) ∧
    (∃ t, step (offering 0x22000000 { decoding with dec := { decoding.dec with dccw := true } }) = .next t ∧ t.rsp = [0x04]) ∧
    (∃ t, step (offering 0xFFFFFFFF decoding) = .next t ∧ t.rsp = [0x03]) :=
  ⟨⟨_, rfl, rfl⟩, ⟨_, rfl, rfl⟩, ⟨_, rfl, rfl⟩, ⟨_, rfl, rfl⟩, ⟨_, rfl, rfl⟩, ⟨_, rfl, rfl⟩⟩

/-- Both causes at their boundary, and a command without one. -/
theorem witness_ConfigurationErrorHasExactlyTheseCauses :
    (configurationCause 0x01002000 configured ∧ ∃ t, step (offering 0x01002000 configured) = .next t) ∧
    (configurationCause 0x10000000 State.reset ∧ ∃ t, step (offering 0x10000000 State.reset) = .next t) ∧
    (∃ t, step (offering 0x01001FFF configured) = .next t ∧ t.rsp = [0x00]) :=
  ⟨⟨.inl ⟨0x2000, by decide, by decide, rfl⟩, _, rfl⟩, ⟨.inr ⟨by decide, rfl, rfl⟩, _, rfl⟩, _, rfl, rfl⟩

/-- A remainder, a failed group, and a command without a cause. -/
theorem witness_FramingErrorHasExactlyTheseCauses :
    (framingCause 0x22000000 (decodingWith [1]) ∧ ∃ t, step (offering 0x22000000 (decodingWith [1])) = .next t) ∧
    (framingCause 0x23000000 failedDecoding ∧ ∃ t, step (offering 0x23000000 failedDecoding) = .next t) ∧
    (∃ t, step (offering 0x22000000 decoding) = .next t ∧ t.rsp = [0x00]) :=
  ⟨⟨⟨rfl, .inl ⟨.inl (by decide), by decide⟩⟩, _, rfl⟩,
    ⟨⟨rfl, .inr (.inr ⟨.inr (.inr (by decide)), rfl⟩)⟩, _, rfl⟩, _, rfl, rfl⟩

/-- A byte that completes a packet with `STATUS` 3, and one with `LEN` 181. -/
theorem witness_FramingErrorHasExactlyTheseCauses_packet :
    (framingCause 0x210000FF (decodingWith ((packetOf 0x10 3 0 1).take 187)) ∧
      ∃ t, step (offering 0x210000FF (decodingWith ((packetOf 0x10 3 0 1).take 187))) = .next t) ∧
    (framingCause 0x210000FF (decodingWith ((packetOf 0x10 0 0 181).take 187)) ∧
      ∃ t, step (offering 0x210000FF (decodingWith ((packetOf 0x10 0 0 181).take 187))) = .next t) :=
  ⟨⟨⟨rfl, .inr (.inl ⟨0xFF, by decide, by decide +kernel, .inl (by decide +kernel)⟩)⟩, _, rfl⟩,
    ⟨⟨rfl, .inr (.inl ⟨0xFF, by decide, by decide +kernel, .inr (by decide +kernel)⟩)⟩, _, rfl⟩⟩

theorem witness_IllegalCommandHasExactlyTheseCauses :
    (illegalCause 0x02000000 State.reset ∧ ∃ t, step (offering 0x02000000 State.reset) = .next t) ∧
    (illegalCause 0x12000000 State.reset ∧ ∃ t, step (offering 0x12000000 State.reset) = .next t) ∧
    (∃ t, step (offering 0x12000000 encoding) = .next t ∧ t.rsp = [0x00]) :=
  ⟨⟨.inl ⟨.unusedOp, by decide⟩, _, rfl⟩, ⟨.inr ⟨.encEnd, by decide, rfl⟩, _, rfl⟩, _, rfl, rfl⟩

/-! ## Witnesses: invariants and whole-machine rules -/

/-- A state in the middle of an encode and of a decode has the invariants, and takes a step. -/
def midway : State :=
  { cfg := { chid := 0x30, chidV := true }
    enc := { ebusy := true, efirst := true, cc := 0, cbuf := [1], gbuf := [], eout := [] }
    dec := { dbusy := true, dfail := false, dccw := false, dcc := 0, pbuf := [1], acc := [2], dout := [] }
    rsp := [0, 0, 0, 0, 0]
    host := { pending := [.command 0x11000001], cmdIndex := 5, rspBase := 0 } }

theorem witness_midway_inv : Inv Config.build midway := by
  constructor <;> simp [midway]

theorem witness_EveryStepKeepsTheInvariants : Inv Config.build midway ∧ ∃ t, step midway = .next t :=
  ⟨witness_midway_inv, _, rfl⟩

theorem witness_EoutStaysWellFramed :
    Inv Config.build midway ∧ EoutFramed Config.build midway ∧ ∃ t, step midway = .next t :=
  ⟨witness_midway_inv, ⟨by simp [midway], [], by simp, rfl⟩, _, rfl⟩

theorem witness_DoutAndRspStayWellFormed : DoutFramed midway ∧ ResponsesLegal midway ∧ ∃ t, step midway = .next t :=
  ⟨⟨[], rfl⟩, by unfold ResponsesLegal; decide, _, rfl⟩

/-- A step for each way a flag changes. -/
theorem witness_FlagsChangeOnlyWhereTheTableSays :
    (∃ t, step (offering 0x01001FFF State.reset) = .next t ∧ t.cfg.chidV = true) ∧
    (∃ t, step (offering 0x01002000 configured) = .next t ∧ t.cfg.chidV = false) ∧
    (∃ t, step (offering 0x10000000 configured) = .next t ∧ t.enc.ebusy = true) ∧
    (∃ t, step (offering 0x12000000 encoding) = .next t ∧ t.enc.ebusy = false) ∧
    (∃ t, step (offering 0x20000000 State.reset) = .next t ∧ t.dec.dbusy = true) ∧
    (∃ t, step (offering 0x23000000 decoding) = .next t ∧ t.dec.dbusy = false) ∧
    (∃ t, step (offering 0x22000000 (decodingWith [1])) = .next t ∧ t.dec.dfail = true) ∧
    (∃ t, step (offering 0x20000000 { failedDecoding with dec := { failedDecoding.dec with dbusy := false } }) = .next t ∧
      t.dec.dfail = false) ∧
    (∃ t, step (offering 0x20000000 { State.reset with dec := { State.reset.dec with dccw := true } }) = .next t ∧
      t.dec.dccw = false) :=
  ⟨⟨_, rfl, rfl⟩, ⟨_, rfl, rfl⟩, ⟨_, rfl, rfl⟩, ⟨_, rfl, rfl⟩, ⟨_, rfl, rfl⟩, ⟨_, rfl, rfl⟩, ⟨_, rfl, rfl⟩, ⟨_, rfl, rfl⟩,
    ⟨_, rfl, rfl⟩⟩

/-- The last way: a packet with a wrong counter sets `DCCW`. -/
theorem witness_FlagsChangeOnlyWhereTheTableSays_dccw :
    (decodingWith ((packetOf 0x15 0 0 1).take 187)).dec.dccw = false ∧
    ∃ t, step (offering 0x210000FF (decodingWith ((packetOf 0x15 0 0 1).take 187))) = .next t ∧ t.dec.dccw = true :=
  ⟨rfl, _, rfl, by decide +kernel⟩

theorem witness_ChannelIsConstantDuringAnEncode :
    (∃ t, step (offering 0x01000031 encoding) = .next t) ∧ (offering 0x01000031 encoding).enc.ebusy = true ∧
    ¬ (offering 0x01000031 encoding).resets :=
  ⟨⟨_, rfl⟩, rfl, fun ⟨_, h⟩ => by cases h⟩

/-- A command of each unit that changes its unit's state. -/
theorem witness_UnitsWriteOnlyTheirOwnState :
    (∃ t, exec .encStart configured = .next t ∧ t.enc ≠ configured.enc) ∧
    (∃ t, exec .decStart configured = .next t ∧ t.dec ≠ configured.dec) ∧
    (∃ t, exec (.cfgChid 1) configured = .next t ∧ t.cfg ≠ configured.cfg) :=
  ⟨⟨_, rfl, by decide⟩, ⟨_, rfl, by decide⟩, ⟨_, rfl, by decide⟩⟩

/-- A step of ENC beside two different states of DEC, and a step of DEC beside two different states of ENC. -/
theorem witness_UnitsReadOnlyTheirOwnState :
    (∃ t t', step (offering 0x10000000 configured) = .next t ∧
      step { offering 0x10000000 configured with dec := failedDecoding.dec } = .next t' ∧
      (offering 0x10000000 configured).presents .encStart ∧ isDecCommand .encStart = false) ∧
    (∃ t t', step (offering 0x20000000 configured) = .next t ∧
      step { offering 0x20000000 configured with cfg := State.reset.cfg, enc := encoding.enc } = .next t' ∧
      (offering 0x20000000 configured).presents .decStart ∧ isDecCommand .decStart = true) :=
  ⟨⟨_, _, rfl, rfl, ⟨_, _, rfl, by decide⟩, rfl⟩, ⟨_, _, rfl, rfl, ⟨_, _, rfl, by decide⟩, rfl⟩⟩

/-- Without a valid channel: a step that leaves it so, and one that loads a channel. -/
theorem witness_ChannelIsUnreadWhileInvalid :
    (Inv Config.build (offering 0x10000000 State.reset) ∧ (offering 0x10000000 State.reset).cfg.chidV = false ∧
      ∃ t, step (offering 0x10000000 State.reset) = .next t) ∧
    (∃ t, step (offering 0x01000030 State.reset) = .next t ∧ t.cfg.chidV = true) :=
  ⟨⟨by constructor <;> simp [offering, State.reset], rfl, _, rfl⟩, _, rfl, rfl⟩

theorem witness_WarningChangesNothingElse : ∃ t, step (offering 0x22000000 (decodingWith [1])) = .next t := ⟨_, rfl⟩

theorem witness_CapMattersOnlyThroughMaxPkts :
    let p : Build := { packetSize := 188, containerSizeCap := 188 }
    let q : Build := { packetSize := 188, containerSizeCap := 375 }
    p ≠ q ∧ p.packetSize = q.packetSize ∧ p.maxPkts = q.maxPkts := by decide

theorem witness_ResetEventFollowsItsRule :
    ({ midway with host := { midway.host with pending := [.reset] } } : State).host.pending = .reset :: [] := rfl

/-! ## Witnesses: the data formats and the function level -/

/-- A small legal build for the witnesses below: chunks of 2 bytes, 2 packets a container. -/
def small : Build := { packetSize := 10, containerSizeCap := 25 }

/-- Two packets with one counter and the same bytes from byte 4 on, whose headers differ. -/
theorem witness_UnpackInvertsPack :
    let P : Bytes := [0x47, 0x40, 0x30, 0x1A, 0, 0, 0, 1, 7, 0xFF]
    let Q : Bytes := [0x00, 0xFF, 0xFF, 0xEA, 0, 0, 0, 1, 7, 0xFF]
    P ≠ Q ∧ (unpackHeader P).ccf = (unpackHeader Q).ccf ∧ P.drop 4 = Q.drop 4 := by decide

theorem witness_HeaderFieldsStandAtTheirOffsets :
    [0x47, 0x5F, 0xFF, 0x1F, 0xAA] = packHeader 0x1FFF 15 ++ [0xAA] := by decide

/-- Chunks of 1 byte and of `CHUNK_SIZE` bytes, and an index in each range of the layout. -/
theorem witness_PacketLayoutFollowsItsRule :
    small.wf = true ∧ small.chunkSize = 2 ∧ (1 ≤ [7].length ∧ [7].length ≤ small.chunkSize) ∧
    (1 ≤ [7, 8].length ∧ [7, 8].length ≤ small.chunkSize) ∧ (8 + [7].length ≤ 9 ∧ 9 < small.packetSize) ∧
    buildPacket small 0x1FFF 15 .last [7] = [0x47, 0x5F, 0xFF, 0x1F, 2, 0, 0, 1, 7, 0xFF] := by decide

/-- An input of five bytes has two full chunks and a last one of one byte; of four, a last one that is full. -/
theorem witness_SlicerFollowsItsRule :
    small.wf = true ∧ 0 + 1 < chunkCount small [1, 2, 3, 4, 5] ∧ 2 + 1 = chunkCount small [1, 2, 3, 4, 5] ∧
    1 + 1 = chunkCount small [1, 2, 3, 4] ∧ chunkCount small [] = 0 := by decide

theorem witness_StatusesFollowTheirRule : 2 ≤ 2 ∧ small.wf = true := by decide

/-- Packet 2 and container 1 of an encode of five bytes exist. -/
theorem witness_ContinuityLaw :
    small.wf = true ∧ (packetsOf small [1, 2, 3, 4, 5] 1)[2]?.isSome = true ∧
    (encodeInput small [1, 2, 3, 4, 5] 1)[1]?.isSome = true := by decide

/-- Three packets: a full run and a last one of one packet; two packets: a last run that is full. -/
theorem witness_GrouperPartitionsThePackets :
    small.wf = true ∧ (groupPackets small [[1], [2], [3]])[0]? = some [[1], [2]] ∧
    (groupPackets small [[1], [2], [3]])[1]? = some [[3]] ∧ (groupPackets small [[1], [2]])[0]? = some [[1], [2]] := by decide

/-- A container that is not the last, and the last. -/
theorem witness_ContainerCapLaw :
    small.wf = true ∧ (encodeInput small [1, 2, 3, 4, 5] 1).length = 2 ∧
    ((encodeInput small [1, 2, 3, 4, 5] 1)[0]?.map List.length) = some 20 ∧
    ((encodeInput small [1, 2, 3, 4, 5] 1)[1]?.map List.length) = some 10 := by decide

theorem witness_EmptyInputGivesNoContainer : small.wf = true ∧ configured.enc.ebusy = false ∧ configured.cfg.chidV = true := by
  decide

/-- An empty input, and two bytes with decoder commands between the encoder's, while a group is being decoded. -/
theorem witness_EncodeCommandsComputeEncode :
    decoding.enc.ebusy = false ∧
    [Instr.cfgChid 0x30, .encStart, .encEnd].filter (fun i => !isDecCommand i) = encodeCommands 0x30 [] ∧
    [Instr.cfgChid 0x30, .decPut 1, .encStart, .encPut 7, .decEoc, .encPut 8, .decEnd, .encEnd].filter
      (fun i => !isDecCommand i) = encodeCommands 0x30 [7, 8] := by decide

/-- One byte, and the byte after a full chunk; the first also lies below the length of the last clause. -/
theorem witness_OutputLagsInput :
    configured.enc.ebusy = false ∧ ([7] : Bytes) ≠ [] ∧
    ([7] : Bytes).length ≤ 180 * (Config.build.containerSizeCap / 188) ∧
    (List.replicate 181 7 : Bytes) ≠ [] ∧ ((List.replicate 181 7 : Bytes).length - 1) / 180 = 1 := by
  have := Build.maxPkts_pos _ Config.build_wf
  rw [Config.build_maxPkts] at this
  refine ⟨rfl, by decide, ?_, by decide, ?_⟩
  · simp; omega
  · rw [List.length_replicate]

/-- A group that decodes, with encoder and configuration commands between its own; and one that fails. -/
theorem witness_DecodeCommandsComputeDecode :
    encoding.dec.dbusy = false ∧
    [Instr.encPut 1, .decStart, .cfgChid 5, .decEoc, .encEnd, .decEnd].filter isDecCommand = decodeCommands [[]] ∧
    [Instr.decStart, .decPut 1, .encEnd, .decEoc, .decEnd].filter isDecCommand = decodeCommands [[1]] := by decide

theorem witness_DecodeCommandsComputeDecode_results :
    decodeGroup Config.build [[]] = .ok [] false ∧ decodeGroup Config.build [[1]] = .framingError ∧
    decodeGroup Config.build [packetOf 0x15 0 0 1] = .ok [0x5A] true := by
  refine ⟨by rfl, by rfl, ?_⟩
  decide +kernel

theorem witness_DecodeOfEncodeIsTheInput : Config.build.wf = true ∧ small.wf = true := ⟨Config.build_wf, by decide⟩

/-- The same packet bytes in one container, and in two with an empty one between. -/
theorem witness_ContainerBoundariesDoNotMatter :
    let P : Bytes := List.replicate 10 1
    small.wf = true ∧ (∀ c ∈ [P ++ P], c.length % small.packetSize = 0) ∧
    (∀ c ∈ [P, [], P], c.length % small.packetSize = 0) ∧ [P ++ P].flatten = [P, [], P].flatten := by decide

theorem witness_EmptyGroupDecodesToNothing : small.wf = true ∧ State.reset.dec.dbusy = false := by decide

/-- One byte too many and one too few. -/
theorem witness_CorruptContainerFailsItsGroup :
    small.wf = true ∧ (List.replicate 11 1 : Bytes).length % small.packetSize ≠ 0 ∧ State.reset.dec.dbusy = false ∧
    (List.replicate 187 1 : Bytes) ∈ [packetOf 0x10 0 0 1, List.replicate 187 1] ∧
    (List.replicate 187 1 : Bytes).length % 188 ≠ 0 := by
  refine ⟨by decide, by decide, rfl, List.mem_cons_of_mem _ (List.mem_cons_self ..), ?_⟩
  rw [List.length_replicate]; decide

theorem witness_DeframerFollowsItsRule :
    decoding.dec.dbusy = true ∧ decoding.dec.dfail = false ∧ decoding.dec.pbuf = [] := by decide

theorem witness_SecondEncodeReplacesTheFirst : small.wf = true ∧ ([1] : Bytes) ≠ [] ∧ chunkCount small [1] % 16 ≠ 0 := by decide

end Sys2Proof.Tests
end

/-! PROOF. R7: `CONTAINER_SIZE_CAP` enters the rules only through `MAX_PKTS`. Each function that takes the build is shown, in
the order of the definitions, to depend on `PACKET_SIZE` alone or on `PACKET_SIZE` and `MAX_PKTS`. -/

namespace Sys2Proof.Machine

section CapIndependence

variable {p q : Build}

/-! What depends on `PACKET_SIZE` alone. -/

theorem chunkSize_congr (hs : p.packetSize = q.packetSize) : p.chunkSize = q.chunkSize := by
  rw [Build.chunkSize_eq, Build.chunkSize_eq, hs]

theorem buildPacket_congr (hs : p.packetSize = q.packetSize) : buildPacket p = buildPacket q := by
  funext chid cc st c
  rw [buildPacket, buildPacket, chunkSize_congr hs]

theorem readHead_congr (hs : p.packetSize = q.packetSize) : readHead p = readHead q := by
  funext P
  rw [readHead, readHead, chunkSize_congr hs]

theorem pushPacket_congr (hs : p.packetSize = q.packetSize) : pushPacket p = pushPacket q := by
  funext chid last e
  rw [pushPacket, pushPacket, buildPacket_congr hs]

theorem foldPacket_congr (hs : p.packetSize = q.packetSize) : foldPacket p = foldPacket q := by
  funext P d
  rw [foldPacket, foldPacket, readHead_congr hs]

theorem takeContainerByte_congr (hs : p.packetSize = q.packetSize) : takeContainerByte p = takeContainerByte q := by
  funext b d
  rw [takeContainerByte, takeContainerByte, foldIfComplete, foldIfComplete, foldPacket_congr hs, hs]

theorem decPut_congr (hs : p.packetSize = q.packetSize) : decPut p = decPut q := by
  funext b s
  rw [decPut, decPut, takeContainerByte_congr hs]

theorem packetsOf_congr (hs : p.packetSize = q.packetSize) : packetsOf p = packetsOf q := by
  have hn : chunkCount p = chunkCount q := by
    funext input
    rw [chunkCount, chunkCount, chunkSize_congr hs]
  have hpkt : packetAt p = packetAt q := by
    funext input chid i
    rw [packetAt, packetAt, chunkAt_eq, chunkAt_eq, chunkSize_congr hs, buildPacket_congr hs, hn]
  funext input chid
  rw [packetsOf, packetsOf, hn, hpkt]

/-! What depends on `MAX_PKTS` too: the grouper, and whatever emits a packet. -/

theorem groupPackets_congr (hm : p.maxPkts = q.maxPkts) : groupPackets p = groupPackets q := by
  funext pkts
  rw [groupPackets_eq_pieces, groupPackets_eq_pieces, hm]

theorem encodeInput_congr (hs : p.packetSize = q.packetSize) (hm : p.maxPkts = q.maxPkts) :
    encodeInput p = encodeInput q := by
  funext input chid
  rw [encodeInput, encodeInput, groupPackets_congr hm, packetsOf_congr hs]

theorem emitPacket_congr (hs : p.packetSize = q.packetSize) (hm : p.maxPkts = q.maxPkts) :
    emitPacket p = emitPacket q := by
  funext chid last e
  rw [emitPacket, emitPacket, flushIfFull, flushIfFull, pushPacket_congr hs, hm]

theorem encPut_congr (hs : p.packetSize = q.packetSize) (hm : p.maxPkts = q.maxPkts) : encPut p = encPut q := by
  have hput : putInput p = putInput q := by
    funext chid b e
    rw [putInput, putInput, emitFullChunk, emitFullChunk, emitPacket_congr hs hm, chunkSize_congr hs]
  funext b s
  rw [encPut, encPut, hput]

theorem encEnd_congr (hs : p.packetSize = q.packetSize) (hm : p.maxPkts = q.maxPkts) : encEnd p = encEnd q := by
  have hfinish : finishEncode p = finishEncode q := by
    funext chid e
    rw [finishEncode, finishEncode, emitLastChunk, emitLastChunk, emitPacket_congr hs hm]
  funext s
  rw [encEnd, encEnd, hfinish]

end CapIndependence

/-- Settles O36: the cap reaches the encoder only through `flushIfFull` and the grouper, which read `MAX_PKTS`, and never
reaches the decoder. -/
theorem capMattersOnlyThroughMaxPkts : Obligations.CapMattersOnlyThroughMaxPkts := by
  intro p q hs hm
  refine ⟨fun b s => ⟨?_, ?_⟩, fun s => ?_, fun input chid => ?_⟩
  · rw [encPut_congr hs hm]
  · rw [decPut_congr hs]
  · rw [encEnd_congr hs hm]
  · rw [encodeInput_congr hs hm]

end Sys2Proof.Machine

/-! PROOF. The statements of the state and its invariants (10_state.md). First what one command can do, as a relation that
is equivalent to `exec`; the single-run statements are then case analyses of it, and the two-run statements take each case
over to the other state. -/

namespace Sys2Proof.Machine

/-! ## A step, by what HOST does -/

section Step

variable {s : State} {rest : List HostEvent}

theorem step_of_idle (hp : s.host.pending = []) : step s = .next s := by
  simp [step, hp, idle]

theorem step_of_take {ch : Channel} (hp : s.host.pending = .take ch :: rest) : step s = .next (dropEvent rest s) := by
  simp [step, hp, takeRecord]

theorem step_of_reset (hp : s.host.pending = .reset :: rest) : step s = .next (resetEvent (dropEvent rest s)) := by
  simp [step, hp]

theorem step_of_command {w : Word} {i : Instr} (hp : s.host.pending = .command w :: rest)
    (hd : decode w = .command i) : step s = exec i (takeCommand rest s) := by
  simp [step, hp, hd]

theorem step_of_illegal {w : Word} {why : IllegalEncoding} (hp : s.host.pending = .command w :: rest)
    (hd : decode w = .illegal why) : step s = .next (illegalEncoding (takeCommand rest s)) := by
  simp [step, hp, hd]

end Step

/-- Settles O6: decoding looks at the word alone, and taking it moves nothing but HOST's list and the index. -/
theorem stepRunsTheDecodedCommand : Obligations.StepRunsTheDecodedCommand :=
  fun _ _ _ _ hp hd => step_of_command hp hd

/-- The first half of R78's agreement: the decoder reads back the command of a packed word. -/
theorem decode_encode (i : Instr) : decode (encode i) = .command i := by
  cases i <;> simp [encode, decode, decodePlain, decodeByte, decodeReserved]

theorem tableWord_toNat (w : Word) : tableWord 32 w.toNat = w := by
  simp [tableWord, Nat.mod_eq_of_lt w.isLt]

/-- Settles O7: `withFetchWord` puts the word at the head of HOST's list, where the step takes it. -/
theorem placedWordRunsNext : Obligations.PlacedWordRunsNext := by
  intro s i
  refine ⟨by simp [decodeTableWord, tableWord_toNat, decode_encode], ?_⟩
  have hp : (s.withFetchWord 32 (encode i).toNat).host.pending = .command (encode i) :: s.host.pending := by
    simp [tableWord_toNat]
  exact step_of_command hp (decode_encode i)

/-! ## A command, by what it does -/

/-- `Effect s i t`: command `i` takes `s` to `t`, one constructor for each way a command can go (R100, R120 to R122, R141 to
R144), its condition included. -/
inductive Effect (s : State) : Instr → State → Prop
  | violation {i : Instr} (hv : sequenceViolation i s = true) : Effect s i (raise .illegalCommand s)
  | chidRefused {v : BitVec 16} (hb : s.enc.ebusy = false) (hv : 8191 < v.toNat) :
      Effect s (.cfgChid v) (raise .configurationError (s.onCfg invalidateChid))
  | chidLoaded {v : BitVec 16} (hb : s.enc.ebusy = false) (hv : v.toNat ≤ 8191) :
      Effect s (.cfgChid v) (respond .ok false (s.onCfg (loadChid (v.extractLsb' 0 13))))
  | startWithoutChid (hb : s.enc.ebusy = false) (hv : s.cfg.chidV = false) :
      Effect s .encStart (raise .configurationError s)
  | encStarted (hb : s.enc.ebusy = false) (hv : s.cfg.chidV = true) :
      Effect s .encStart (respond .ok false (s.onEnc beginEncode))
  | encPut {b : Byte} (hb : s.enc.ebusy = true) :
      Effect s (.encPut b) (respond .ok false (s.onEnc (putInput Config.build s.cfg.chid b)))
  | encEnded (hb : s.enc.ebusy = true) :
      Effect s .encEnd (respond .ok false (s.onEnc (finishEncode Config.build s.cfg.chid)))
  | decStarted (hb : s.dec.dbusy = false) : Effect s .decStart (respond .ok false (s.onDec beginGroup))
  | decPut {b : Byte} (hb : s.dec.dbusy = true) :
      Effect s (.decPut b) (respondGroup (s.onDec (takeContainerByte Config.build b)))
  | decEoc (hb : s.dec.dbusy = true) : Effect s .decEoc (respondGroup (s.onDec checkRemainder))
  | decEnded (hb : s.dec.dbusy = true) : Effect s .decEnd (respondGroup (s.onDec finishGroup))

/-- The inversion of `exec`: every command goes one of the ways of `Effect`. -/
theorem effect_of_exec {i : Instr} {s t : State} (h : exec i s = .next t) : Effect s i t := by
  cases i with
  | cfgChid v =>
    obtain rfl : cfgChid v s = t := Host.Outcome.next.inj h
    obtain ⟨hb, e⟩ | ⟨hb, hv, e⟩ | ⟨hb, hv, e⟩ := cfgChid_cases v s <;> rw [e]
    exacts [.violation hb, .chidRefused hb hv, .chidLoaded hb hv]
  | encStart =>
    obtain rfl : encStart s = t := Host.Outcome.next.inj h
    obtain ⟨hb, e⟩ | ⟨hb, hv, e⟩ | ⟨hb, hv, e⟩ := encStart_cases s <;> rw [e]
    exacts [.violation hb, .startWithoutChid hb hv, .encStarted hb hv]
  | encPut b =>
    obtain rfl : encPut Config.build b s = t := Host.Outcome.next.inj h
    obtain ⟨hb, e⟩ | ⟨hb, e⟩ := encPut_cases Config.build b s <;> rw [e]
    exacts [.violation (by simp [sequenceViolation, hb]), .encPut hb]
  | encEnd =>
    obtain rfl : encEnd Config.build s = t := Host.Outcome.next.inj h
    obtain ⟨hb, e⟩ | ⟨hb, e⟩ := encEnd_cases Config.build s <;> rw [e]
    exacts [.violation (by simp [sequenceViolation, hb]), .encEnded hb]
  | decStart =>
    obtain rfl : decStart s = t := Host.Outcome.next.inj h
    obtain ⟨hb, e⟩ | ⟨hb, e⟩ := decStart_cases s <;> rw [e]
    exacts [.violation hb, .decStarted hb]
  | decPut b =>
    obtain rfl : decPut Config.build b s = t := Host.Outcome.next.inj h
    obtain ⟨hb, e⟩ | ⟨hb, e⟩ := decPut_cases Config.build b s <;> rw [e]
    exacts [.violation (by simp [sequenceViolation, hb]), .decPut hb]
  | decEoc =>
    obtain rfl : decEoc s = t := Host.Outcome.next.inj h
    obtain ⟨hb, e⟩ | ⟨hb, e⟩ := decEoc_cases s <;> rw [e]
    exacts [.violation (by simp [sequenceViolation, hb]), .decEoc hb]
  | decEnd =>
    obtain rfl : decEnd s = t := Host.Outcome.next.inj h
    obtain ⟨hb, e⟩ | ⟨hb, e⟩ := decEnd_cases s <;> rw [e]
    exacts [.violation (by simp [sequenceViolation, hb]), .decEnded hb]

theorem exec_of_violation {i : Instr} {s : State} (hv : sequenceViolation i s = true) :
    exec i s = .next (raise .illegalCommand s) := by
  cases i with
  | cfgChid | encStart | decStart =>
    simp only [sequenceViolation] at hv
    simp [cfgChid, encStart, decStart, hv]
  | encPut | encEnd | decPut | decEoc | decEnd =>
    simp only [sequenceViolation, Bool.not_eq_true'] at hv
    simp [encPut, encEnd, decPut, decEoc, decEnd, hv]

/-- The conditions of `Effect` are complete, so it says no less than `exec`. -/
theorem exec_of_effect {i : Instr} {s t : State} (he : Effect s i t) : exec i s = .next t := by
  cases he with
  | violation hv => exact exec_of_violation hv
  | chidRefused hb hv => simp [cfgChid, chidOperand, chidMax, hb, hv]
  | chidLoaded hb hv => simp [cfgChid, chidOperand, chidMax, hb, Nat.not_lt.2 hv]
  | startWithoutChid hb hv => simp [encStart, hb, hv]
  | encStarted hb hv => simp [encStart, hb, hv]
  | encPut hb => simp [encPut, hb]
  | encEnded hb => simp [encEnd, hb]
  | decStarted hb => simp [decStart, hb]
  | decPut hb => simp [decPut, hb]
  | decEoc hb => simp [decEoc, hb]
  | decEnded hb => simp [decEnd, hb]

/-- What a step does to the units and the channels: nothing but perhaps a response, a reset, or a command. -/
theorem step_changes {s t : State} (h : step s = .next t) :
    (t.cfg = s.cfg ∧ t.enc = s.enc ∧ t.dec = s.dec) ∨
    (∃ rest, s.host.pending = .reset :: rest ∧ t = resetEvent (dropEvent rest s)) ∨
    (∃ rest i, s.presents i ∧ Effect (takeCommand rest s) i t) := by
  obtain ⟨_, rfl⟩ | ⟨_, _, _, rfl⟩ | ⟨rest, hp, rfl⟩ | ⟨w, rest, i, hp, hd, h⟩ | ⟨_, _, _, _, _, rfl⟩ := step_cases h
  · exact .inl ⟨rfl, rfl, rfl⟩
  · exact .inl ⟨rfl, rfl, rfl⟩
  · exact .inr (.inl ⟨rest, hp, rfl⟩)
  · exact .inr (.inr ⟨rest, i, ⟨w, rest, hp, hd⟩, effect_of_exec h⟩)
  · exact .inl ⟨rfl, rfl, rfl⟩

/-! ## The invariants (a) to (i) of R31 -/

/-- (a), (b), (d), (g), (h) of R31, for ENC beside a channel of this validity. -/
structure EncInv (p : Build) (chidV : Bool) (e : Enc) : Prop where
  cbufFits : e.cbuf.length ≤ p.chunkSize
  gbufFits : e.gbuf.length ≤ p.maxPkts - 1
  gbufPackets : ∀ P ∈ e.gbuf, P.length = p.packetSize
  idle : e.ebusy = false → e.cbuf = [] ∧ e.gbuf = []
  busyHasChid : e.ebusy = true → chidV = true
  firstIsFresh : e.ebusy = true → e.efirst = true → e.cc = 0 ∧ e.gbuf = []

/-- (c), (e), (f) of R31, for DEC. -/
structure DecInv (p : Build) (d : Dec) : Prop where
  pbufFits : d.pbuf.length ≤ p.packetSize - 1
  idle : d.dbusy = false → d.pbuf = [] ∧ d.acc = []
  failed : d.dfail = true → d.pbuf = [] ∧ d.acc = []

/-- R31 unit by unit, with (i) for the responses. -/
theorem inv_iff (p : Build) (s : State) :
    Inv p s ↔ EncInv p s.cfg.chidV s.enc ∧ DecInv p s.dec ∧ s.rsp.length = s.host.rspBase + s.host.cmdIndex := by
  constructor
  · rintro ⟨ha, hb, hb', hc, hd, he, hf, hg, hh, hi⟩
    exact ⟨⟨ha, hb, hb', hd, hg, hh⟩, ⟨hc, he, hf⟩, hi⟩
  · rintro ⟨⟨ha, hb, hb', hd, hg, hh⟩, ⟨hc, he, hf⟩, hi⟩
    exact ⟨ha, hb, hb', hc, hd, he, hf, hg, hh, hi⟩

section EncInv

variable {p : Build} {v : Bool} {e : Enc}

/-- With empty buffers nothing is left to ask but (g) and (h). -/
theorem EncInv.of_empty (hc : e.cbuf = []) (hg : e.gbuf = []) (hv : e.ebusy = true → v = true)
    (hf : e.ebusy = true → e.efirst = true → e.cc = 0) : EncInv p v e := by
  constructor <;> simp_all

/-- While ENC is idle the channel may become valid or invalid. -/
theorem EncInv.of_idle {v' : Bool} (h : EncInv p v e) (hb : e.ebusy = false) : EncInv p v' e :=
  { h with busyHasChid := fun hb' => by simp [hb] at hb', firstIsFresh := h.firstIsFresh }

theorem EncInv.beginEncode (hv : v = true) : EncInv p v (beginEncode e) :=
  .of_empty rfl rfl (fun _ => hv) (fun _ _ => rfl)

theorem EncInv.finishEncode {chid : ChannelId} : EncInv p v (finishEncode p chid e) :=
  .of_empty (by simp) (by simp) (by simp) (by simp)

/-- A packet that fills the container leaves `GBUF` empty, and one that does not leaves room in it. -/
theorem EncInv.emitPacket {chid : ChannelId} {last : Bool} (hp : p.wf = true) (h : EncInv p v e)
    (hb : e.ebusy = true) : EncInv p v (emitPacket p chid last e) := by
  have hv : e.ebusy = true → v = true := h.busyHasChid
  obtain ⟨_, he⟩ | ⟨hne, he⟩ := emitPacket_cases p chid last e <;> rw [he]
  · exact .of_empty rfl rfl hv (by simp)
  · have hroom : (pushPacket p chid last e).gbuf.length ≤ p.maxPkts - 1 := by
      have := h.gbufFits
      have := p.maxPkts_pos hp
      simp only [pushPacket_gbuf, List.length_append, List.length_singleton] at hne ⊢
      omega
    have hsize : ∀ P ∈ (pushPacket p chid last e).gbuf, P.length = p.packetSize := by
      simpa [or_imp, forall_and] using ⟨h.gbufPackets, buildPacket_length _ _ _ _ _ hp h.cbufFits⟩
    exact ⟨by simp, hroom, hsize, by simp [hb], hv, by simp⟩

theorem EncInv.appendInput {b : Byte} (h : EncInv p v e) (hb : e.ebusy = true) (hc : e.cbuf.length < p.chunkSize) :
    EncInv p v (appendInput b e) :=
  { h with cbufFits := by simpa using hc, idle := by simp [hb] }

theorem EncInv.putInput {chid : ChannelId} {b : Byte} (hp : p.wf = true) (h : EncInv p v e) (hb : e.ebusy = true) :
    EncInv p v (putInput p chid b e) := by
  obtain ⟨_, he⟩ | ⟨hne, he⟩ := putInput_cases p chid b e <;> rw [he]
  · exact (h.emitPacket hp hb).appendInput (by simpa) (by simpa using p.chunkSize_pos hp)
  · exact h.appendInput hb (Nat.lt_of_le_of_ne h.cbufFits hne)

end EncInv

section DecInv

variable {p : Build} {d : Dec}

theorem DecInv.of_empty (hp : d.pbuf = []) (ha : d.acc = []) : DecInv p d :=
  ⟨by simp [hp], fun _ => ⟨hp, ha⟩, fun _ => ⟨hp, ha⟩⟩

/-- A folded packet has left `PBUF`, and the group keeps `ACC` only if it has not failed. -/
theorem DecInv.foldPacket {P : Bytes} (hb : d.dbusy = true) (hf : d.dfail = false) (hp : d.pbuf = []) :
    DecInv p (foldPacket p P d) := by
  obtain ⟨_, he⟩ | ⟨st, data, _, he⟩ := foldPacket_cases p P d <;> rw [he]
  · exact .of_empty rfl rfl
  · exact ⟨by simp [hp], by simp [hb], by simp [hf]⟩

theorem DecInv.takeContainerByte {b : Byte} (hp : p.wf = true) (h : DecInv p d) (hb : d.dbusy = true) :
    DecInv p (takeContainerByte p b d) := by
  obtain ⟨_, he⟩ | ⟨hf, hne, he⟩ | ⟨hf, _, he⟩ := takeContainerByte_cases p b d <;> rw [he]
  · exact h
  · have := h.pbufFits
    have := (p.wf_iff.1 hp).1
    exact ⟨by simp; omega, by simp [hb], by simp [hf]⟩
  · exact .foldPacket hb hf rfl

theorem DecInv.checkRemainder (h : DecInv p d) : DecInv p (checkRemainder d) := by
  obtain ⟨_, _, he⟩ | ⟨_, he⟩ := checkRemainder_cases d <;> rw [he]
  · exact .of_empty rfl rfl
  · exact h

theorem DecInv.finishGroup : DecInv p (finishGroup d) := .of_empty rfl rfl

end DecInv

/-- Settles O26: nothing is buffered, nothing is in progress and nothing has been answered. -/
theorem invariantsHoldAfterReset : Obligations.InvariantsHoldAfterReset :=
  (inv_iff ..).2 ⟨.of_empty rfl rfl nofun nofun, .of_empty rfl rfl, rfl⟩

theorem Effect.keeps_encInv {i : Instr} {s t : State} (he : Effect s i t)
    (h : EncInv Config.build s.cfg.chidV s.enc) : EncInv Config.build t.cfg.chidV t.enc := by
  cases he with
  | chidRefused hb | chidLoaded hb => exact h.of_idle hb
  | encStarted _ hv => exact .beginEncode hv
  | encPut hb => exact h.putInput Config.build_wf hb
  | encEnded => exact .finishEncode
  | violation | startWithoutChid | decStarted | decPut | decEoc | decEnded => exact h

theorem Effect.keeps_decInv {i : Instr} {s t : State} (he : Effect s i t)
    (h : DecInv Config.build s.dec) : DecInv Config.build t.dec := by
  cases he with
  | decStarted => exact .of_empty rfl rfl
  | decPut hb => exact h.takeContainerByte Config.build_wf hb
  | decEoc => exact h.checkRemainder
  | decEnded => exact .finishGroup
  | violation | chidRefused | chidLoaded | startWithoutChid | encStarted | encPut | encEnded => exact h

theorem Effect.host_eq {i : Instr} {s t : State} (he : Effect s i t) : t.host = s.host := by
  cases he <;> rfl

theorem Effect.answers_once {i : Instr} {s t : State} (he : Effect s i t) : ∃ r, t.rsp = s.rsp ++ [r] := by
  cases he <;> exact ⟨_, rfl⟩

/-- A presented word, whether it decodes to a command or not, takes the command index forward and is answered. -/
theorem step_of_presented {s t : State} {w : Word} {rest : List HostEvent} (hp : s.host.pending = .command w :: rest)
    (h : step s = .next t) : t.host = (takeCommand rest s).host ∧ ∃ r, t.rsp = s.rsp ++ [r] := by
  cases hd : decode w with
  | command i =>
    have he := effect_of_exec ((step_of_command hp hd).symm.trans h)
    exact ⟨he.host_eq, he.answers_once⟩
  | illegal why =>
    obtain rfl := Host.Outcome.next.inj ((step_of_illegal hp hd).symm.trans h)
    exact ⟨rfl, _, rfl⟩

/-- (i) of R31: a command moves both counts, a reset starts both again, anything else moves neither. -/
theorem step_keeps_answeredAll {s t : State} (h : step s = .next t)
    (hi : s.rsp.length = s.host.rspBase + s.host.cmdIndex) : t.rsp.length = t.host.rspBase + t.host.cmdIndex := by
  have hcommand : ∀ {w rest}, s.host.pending = .command w :: rest →
      t.rsp.length = t.host.rspBase + t.host.cmdIndex := by
    intro w rest hp
    obtain ⟨hhost, r, hrsp⟩ := step_of_presented hp h
    simp [hhost, hrsp, hi, Nat.add_assoc]
  obtain ⟨_, rfl⟩ | ⟨_, _, _, rfl⟩ | ⟨_, _, rfl⟩ | ⟨_, _, _, hp, _⟩ | ⟨_, _, _, hp, _⟩ := step_cases h
  · exact hi
  · exact hi
  · rfl
  · exact hcommand hp
  · exact hcommand hp

/-- Settles O27, unit by unit: a command keeps the invariants of the unit it writes. -/
theorem everyStepKeepsTheInvariants : Obligations.EveryStepKeepsTheInvariants := by
  intro s t hinv h
  obtain ⟨henc, hdec, hi⟩ := (inv_iff ..).1 hinv
  obtain ⟨henc', hdec'⟩ : EncInv Config.build t.cfg.chidV t.enc ∧ DecInv Config.build t.dec := by
    obtain ⟨hc, he, hd⟩ | ⟨_, _, rfl⟩ | ⟨_, _, _, he⟩ := step_changes h
    · rw [hc, he, hd]
      exact ⟨henc, hdec⟩
    · exact ⟨.of_empty rfl rfl nofun nofun, .of_empty rfl rfl⟩
    · exact ⟨he.keeps_encInv henc, he.keeps_decInv hdec⟩
  exact (inv_iff ..).2 ⟨henc', hdec', step_keeps_answeredAll h hi⟩

/-! ## Channels only grow (R27) -/

theorem emitPacket_eout_grows (p : Build) (chid : ChannelId) (last : Bool) (e : Enc) :
    ∃ es, (emitPacket p chid last e).eout = e.eout ++ es := by
  obtain ⟨_, he⟩ | ⟨_, he⟩ := emitPacket_cases p chid last e <;> rw [he]
  · exact ⟨_, rfl⟩
  · exact ⟨[], by simp⟩

theorem putInput_eout_grows (p : Build) (chid : ChannelId) (b : Byte) (e : Enc) :
    ∃ es, (putInput p chid b e).eout = e.eout ++ es := by
  obtain ⟨_, he⟩ | ⟨_, he⟩ := putInput_cases p chid b e <;> rw [he]
  · exact emitPacket_eout_grows p chid false e
  · exact ⟨[], by simp⟩

theorem finishEncode_eout_grows (p : Build) (chid : ChannelId) (e : Enc) :
    ∃ es, (finishEncode p chid e).eout = e.eout ++ es := by
  obtain ⟨_, _, he⟩ | ⟨_, _, he⟩ | ⟨_, he⟩ := finishEncode_cases p chid e <;> rw [he]
  · exact ⟨[], by simp⟩
  · exact ⟨_, rfl⟩
  · exact ⟨_, rfl⟩

theorem finishGroup_dout_grows (d : Dec) : ∃ ds, (finishGroup d).dout = d.dout ++ ds := by
  obtain ⟨_, _, he⟩ | ⟨_, he⟩ := finishGroup_cases d <;> rw [he]
  · exact ⟨_, rfl⟩
  · exact ⟨[], by simp⟩

theorem Effect.eout_grows {i : Instr} {s t : State} (he : Effect s i t) : ∃ es, t.enc.eout = s.enc.eout ++ es := by
  cases he with
  | encPut => exact putInput_eout_grows ..
  | encEnded => exact finishEncode_eout_grows ..
  | _ => exact ⟨[], by simp⟩

theorem Effect.dout_grows {i : Instr} {s t : State} (he : Effect s i t) : ∃ ds, t.dec.dout = s.dec.dout ++ ds := by
  cases he with
  | decEnded => exact finishGroup_dout_grows ..
  | _ => exact ⟨[], by simp⟩

theorem step_channels_grow {s t : State} (h : step s = .next t) :
    (∃ es, t.enc.eout = s.enc.eout ++ es) ∧ (∃ ds, t.dec.dout = s.dec.dout ++ ds) := by
  obtain ⟨_, he, hd⟩ | ⟨_, _, rfl⟩ | ⟨_, _, _, he⟩ := step_changes h
  · exact ⟨⟨[], by simp [he]⟩, ⟨[], by simp [hd]⟩⟩
  · exact ⟨⟨[], by simp⟩, ⟨[], by simp⟩⟩
  · exact ⟨he.eout_grows, he.dout_grows⟩

theorem step_rsp_of_not_presented {s t : State} (h : step s = .next t)
    (hn : ∀ w rest, s.host.pending ≠ .command w :: rest) : t.rsp = s.rsp := by
  obtain ⟨_, rfl⟩ | ⟨_, _, _, rfl⟩ | ⟨_, _, rfl⟩ | ⟨w, rest, _, hp, _⟩ | ⟨w, rest, _, hp, _⟩ := step_cases h
  · rfl
  · rfl
  · rfl
  · exact absurd hp (hn w rest)
  · exact absurd hp (hn w rest)

/-- Settles O10: every arm of `exec` ends in exactly one response, and every emission is an append. -/
theorem everyCommandIsAnsweredOnce : Obligations.EveryCommandIsAnsweredOnce := by
  intro s t h
  refine ⟨fun w rest hp => ?_, step_rsp_of_not_presented h, step_channels_grow h⟩
  obtain ⟨hhost, hrsp⟩ := step_of_presented hp h
  exact ⟨hrsp, by simp [hhost]⟩

/-! ## The flags (R23) and the channel (R24) -/

/-- Settles O37: the reset state is written out field by field. -/
theorem resetStateFollowsTheTable : Obligations.ResetStateFollowsTheTable :=
  ⟨rfl, rfl, rfl, rfl, rfl, rfl, rfl, rfl, rfl, rfl, rfl, rfl⟩

theorem Effect.cfg_of_ebusy {i : Instr} {s t : State} (he : Effect s i t) (hb : s.enc.ebusy = true) : t.cfg = s.cfg := by
  cases he with
  | chidRefused hb' | chidLoaded hb' => simp [hb] at hb'
  | _ => rfl

/-- Settles O31: `CFG.CHID` is refused while `EBUSY = 1`, and no other command writes the configuration. -/
theorem channelIsConstantDuringAnEncode : Obligations.ChannelIsConstantDuringAnEncode := by
  intro s t h hb hn
  obtain ⟨hc, _, _⟩ | ⟨rest, hp, _⟩ | ⟨_, _, _, he⟩ := step_changes h
  · exact hc
  · exact absurd ⟨rest, hp⟩ hn
  · exact he.cfg_of_ebusy hb

section Flags

variable {i : Instr} {s t : State}

theorem Effect.sets_chidV (he : Effect s i t) (h0 : s.cfg.chidV = false) (h1 : t.cfg.chidV = true) :
    ∃ v, i = .cfgChid v ∧ v.toNat ≤ 8191 := by
  cases he with
  | chidLoaded _ hv => exact ⟨_, rfl, hv⟩
  | _ => simp_all

theorem Effect.clears_chidV (he : Effect s i t) (h1 : s.cfg.chidV = true) (h0 : t.cfg.chidV = false) :
    ∃ v, i = .cfgChid v ∧ 8191 < v.toNat := by
  cases he with
  | chidRefused _ hv => exact ⟨_, rfl, hv⟩
  | _ => simp_all

theorem Effect.sets_ebusy (he : Effect s i t) (h0 : s.enc.ebusy = false) (h1 : t.enc.ebusy = true) : i = .encStart := by
  cases he with
  | encStarted => rfl
  | _ => simp_all

theorem Effect.clears_ebusy (he : Effect s i t) (h1 : s.enc.ebusy = true) (h0 : t.enc.ebusy = false) : i = .encEnd := by
  cases he with
  | encEnded => rfl
  | _ => simp_all

theorem Effect.sets_dbusy (he : Effect s i t) (h0 : s.dec.dbusy = false) (h1 : t.dec.dbusy = true) : i = .decStart := by
  cases he with
  | decStarted => rfl
  | _ => simp_all

theorem Effect.clears_dbusy (he : Effect s i t) (h1 : s.dec.dbusy = true) (h0 : t.dec.dbusy = false) : i = .decEnd := by
  cases he with
  | decEnded => rfl
  | _ => simp_all

theorem Effect.sets_dfail (he : Effect s i t) (h0 : s.dec.dfail = false) (h1 : t.dec.dfail = true) :
    (∃ b, i = .decPut b) ∨ i = .decEoc ∨ i = .decEnd := by
  cases he with
  | decPut => exact .inl ⟨_, rfl⟩
  | decEoc => exact .inr (.inl rfl)
  | decEnded => exact .inr (.inr rfl)
  | _ => simp_all

/-- `DFAIL` is sticky inside a group: the decoder's other commands keep it. -/
theorem Effect.clears_dfail (he : Effect s i t) (h1 : s.dec.dfail = true) (h0 : t.dec.dfail = false) : i = .decStart := by
  cases he with
  | decStarted => rfl
  | decPut => simp [takeContainerByte, h1] at h0
  | decEoc => simp [checkRemainder, h1] at h0
  | decEnded => simp [finishGroup, checkRemainder, deliver, h1] at h0
  | _ => simp_all

theorem Effect.sets_dccw (he : Effect s i t) (h0 : s.dec.dccw = false) (h1 : t.dec.dccw = true) : ∃ b, i = .decPut b := by
  cases he with
  | decPut => exact ⟨_, rfl⟩
  | _ => simp_all

theorem takeContainerByte_dccw_of_set (p : Build) (b : Byte) (d : Dec) (h : d.dccw = true) :
    (takeContainerByte p b d).dccw = true := by
  obtain ⟨_, he⟩ | ⟨_, _, he⟩ | ⟨_, _, he⟩ := takeContainerByte_cases p b d <;> simp [he, h, warnAfter]

/-- `DCCW` is sticky inside a group: the decoder's other commands keep it. -/
theorem Effect.clears_dccw (he : Effect s i t) (h1 : s.dec.dccw = true) (h0 : t.dec.dccw = false) : i = .decStart := by
  cases he with
  | decStarted => rfl
  | decPut => simp [takeContainerByte_dccw_of_set _ _ _ h1] at h0
  | _ => simp_all

end Flags

/-- Settles O30: a step that does not reset changes a flag only by a command, and each flag has its commands. -/
theorem flagsChangeOnlyWhereTheTableSays : Obligations.FlagsChangeOnlyWhereTheTableSays := by
  refine ⟨fun s t h => ?_, rfl, rfl, rfl, rfl, rfl⟩
  obtain ⟨hc, he, hd⟩ | ⟨rest, hp, rfl⟩ | ⟨rest, i, hi, he⟩ := step_changes h
  · simp +contextual [hc, he, hd]
  · have hr : s.resets := ⟨rest, hp⟩
    simp [hr, State.reset]
  · have hs : ∀ {j}, i = j → s.presents j := fun hj => hj ▸ hi
    refine ⟨fun h0 h1 => ?_, fun h1 h0 => .inl ?_, fun h0 h1 => hs (he.sets_ebusy h0 h1),
      fun h1 h0 => .inl (hs (he.clears_ebusy h1 h0)), fun h0 h1 => hs (he.sets_dbusy h0 h1),
      fun h1 h0 => .inl (hs (he.clears_dbusy h1 h0)), fun h0 h1 => ?_,
      fun h1 h0 => .inl (hs (he.clears_dfail h1 h0)), fun h0 h1 => ?_,
      fun h1 h0 => .inl (hs (he.clears_dccw h1 h0))⟩
    · exact (he.sets_chidV h0 h1).imp fun _ => .imp_left hs
    · exact (he.clears_chidV h1 h0).imp fun _ => .imp_left hs
    · exact (he.sets_dfail h0 h1).imp (.imp fun _ => hs) (.imp hs hs)
    · exact (he.sets_dccw h0 h1).imp fun _ => hs

/-! ## What the units write (R34) -/

section Units

variable {i : Instr} {s t : State}

theorem Effect.writes_enc (he : Effect s i t) (hne : t.enc ≠ s.enc) :
    i = .encStart ∨ (∃ b, i = .encPut b) ∨ i = .encEnd := by
  cases he with
  | encStarted => exact .inl rfl
  | encPut => exact .inr (.inl ⟨_, rfl⟩)
  | encEnded => exact .inr (.inr rfl)
  | _ => exact absurd rfl hne

theorem Effect.writes_dec (he : Effect s i t) (hne : t.dec ≠ s.dec) :
    i = .decStart ∨ (∃ b, i = .decPut b) ∨ i = .decEoc ∨ i = .decEnd := by
  cases he with
  | decStarted => exact .inl rfl
  | decPut => exact .inr (.inl ⟨_, rfl⟩)
  | decEoc => exact .inr (.inr (.inl rfl))
  | decEnded => exact .inr (.inr (.inr rfl))
  | _ => exact absurd rfl hne

theorem Effect.writes_cfg (he : Effect s i t) (hne : t.cfg ≠ s.cfg) : ∃ v, i = .cfgChid v := by
  cases he with
  | chidRefused | chidLoaded => exact ⟨_, rfl⟩
  | _ => exact absurd rfl hne

end Units

/-- Settles O32: every way a command can go changes one unit at most, then responds. -/
theorem unitsWriteOnlyTheirOwnState : Obligations.UnitsWriteOnlyTheirOwnState := by
  intro i s t h
  have he := effect_of_exec h
  exact ⟨he.writes_enc, he.writes_dec, he.writes_cfg, he.host_eq⟩

/-! ## What the units read (R34, R203) -/

section TwoRuns

variable {i : Instr} {s s' t t' : State}

theorem State.presents_unique {j : Instr} (hi : s.presents i) (hj : s.presents j) : i = j := by
  obtain ⟨w, rest, hp, hd⟩ := hi
  obtain ⟨w', rest', hp', hd'⟩ := hj
  obtain ⟨⟨⟩, rfl⟩ := List.cons.inj (hp.symm.trans hp')
  exact Decoded.command.inj (hd.symm.trans hd')

theorem Effect.unique (he : Effect s i t) (he' : Effect s i t') : t = t' :=
  Host.Outcome.next.inj ((exec_of_effect he).symm.trans (exec_of_effect he'))

/-- Two states that meet the same list of HOST's take the same step. -/
theorem step_lockstep (h : step s = .next t) (h' : step s' = .next t') (hhost : s'.host = s.host) :
    (t = s ∧ t' = s') ∨
    (∃ rest, t = dropEvent rest s ∧ t' = dropEvent rest s') ∨
    (∃ rest, t = resetEvent (dropEvent rest s) ∧ t' = resetEvent (dropEvent rest s')) ∨
    (∃ rest, t = raise .illegalCommand (takeCommand rest s) ∧ t' = raise .illegalCommand (takeCommand rest s')) ∨
    (∃ rest i, s.presents i ∧ Effect (takeCommand rest s) i t ∧ Effect (takeCommand rest s') i t') := by
  obtain ⟨hp, rfl⟩ | ⟨_, rest, hp, rfl⟩ | ⟨rest, hp, rfl⟩ | ⟨w, rest, i, hp, hd, h⟩ | ⟨w, rest, why, hp, hd, rfl⟩ :=
    step_cases h <;> have hp' := (congrArg HostPort.pending hhost).trans hp
  · exact .inl ⟨rfl, Host.Outcome.next.inj (h'.symm.trans (step_of_idle hp'))⟩
  · exact .inr (.inl ⟨rest, rfl, Host.Outcome.next.inj (h'.symm.trans (step_of_take hp'))⟩)
  · exact .inr (.inr (.inl ⟨rest, rfl, Host.Outcome.next.inj (h'.symm.trans (step_of_reset hp'))⟩))
  · have he' := effect_of_exec ((step_of_command hp' hd).symm.trans h')
    exact .inr (.inr (.inr (.inr ⟨rest, i, ⟨w, rest, hp, hd⟩, effect_of_exec h, he'⟩)))
  · exact .inr (.inr (.inr (.inl ⟨rest, rfl, Host.Outcome.next.inj (h'.symm.trans (step_of_illegal hp' hd))⟩)))

theorem Effect.cfg_enc_of_dec (he : Effect s i t) (hi : isDecCommand i = true) : t.cfg = s.cfg ∧ t.enc = s.enc := by
  cases he with
  | violation | decStarted | decPut | decEoc | decEnded => exact ⟨rfl, rfl⟩
  | _ => cases hi

theorem Effect.dec_of_not_dec (he : Effect s i t) (hi : isDecCommand i = false) : t.dec = s.dec := by
  cases he with
  | decStarted | decPut | decEoc | decEnded => cases hi
  | _ => rfl

/-- A command of the configuration or of ENC goes the same way beside any state of DEC. -/
theorem Effect.beside_dec (he : Effect s i t) (hi : isDecCommand i = false) (dec : Dec) :
    Effect { s with dec := dec } i { t with dec := dec } := by
  cases he with
  | violation hv =>
    refine .violation (Eq.trans ?_ hv)
    cases i with
    | decStart | decPut | decEoc | decEnd => cases hi
    | _ => rfl
  | chidRefused hb hv => exact .chidRefused hb hv
  | chidLoaded hb hv => exact .chidLoaded hb hv
  | startWithoutChid hb hv => exact .startWithoutChid hb hv
  | encStarted hb hv => exact .encStarted hb hv
  | encPut hb => exact .encPut hb
  | encEnded hb => exact .encEnded hb
  | decStarted | decPut | decEoc | decEnded => cases hi

/-- A command of DEC goes the same way beside any configuration and any state of ENC. -/
theorem Effect.beside_cfg_enc (he : Effect s i t) (hi : isDecCommand i = true) (cfg : Cfg) (enc : Enc) :
    Effect { s with cfg := cfg, enc := enc } i { t with cfg := cfg, enc := enc } := by
  cases he with
  | violation hv =>
    refine .violation (Eq.trans ?_ hv)
    cases i with
    | cfgChid | encStart | encPut | encEnd => cases hi
    | _ => rfl
  | decStarted hb => exact .decStarted hb
  | decPut hb => exact .decPut hb
  | decEoc hb => exact .decEoc hb
  | decEnded hb => exact .decEnded hb
  | chidRefused | chidLoaded | startWithoutChid | encStarted | encPut | encEnded => cases hi

/-- Configuration, ENC and their responses beside another state of DEC. -/
theorem step_beside_dec {dec : Dec} (h : step s = .next t) (h' : step { s with dec := dec } = .next t') :
    t'.cfg = t.cfg ∧ t'.enc = t.enc ∧ (∀ i, s.presents i → isDecCommand i = false → t'.rsp = t.rsp) := by
  obtain ⟨rfl, rfl⟩ | ⟨_, rfl, rfl⟩ | ⟨_, rfl, rfl⟩ | ⟨_, rfl, rfl⟩ | ⟨rest, i, hi, he, he'⟩ := step_lockstep h h' rfl
  iterate 4 exact ⟨rfl, rfl, fun _ _ _ => rfl⟩
  cases hdec : isDecCommand i with
  | true =>
    obtain ⟨hc, henc⟩ := he.cfg_enc_of_dec hdec
    obtain ⟨hc', henc'⟩ := he'.cfg_enc_of_dec hdec
    refine ⟨hc'.trans hc.symm, henc'.trans henc.symm, fun j hj hdec' => ?_⟩
    simp [State.presents_unique hi hj, hdec'] at hdec
  | false =>
    obtain rfl := he'.unique (he.beside_dec hdec dec)
    exact ⟨rfl, rfl, fun _ _ _ => rfl⟩

/-- DEC and its responses beside another configuration and another state of ENC. -/
theorem step_beside_cfg_enc {cfg : Cfg} {enc : Enc} (h : step s = .next t)
    (h' : step { s with cfg := cfg, enc := enc } = .next t') :
    t'.dec = t.dec ∧ (∀ i, s.presents i → isDecCommand i = true → t'.rsp = t.rsp) := by
  obtain ⟨rfl, rfl⟩ | ⟨_, rfl, rfl⟩ | ⟨_, rfl, rfl⟩ | ⟨_, rfl, rfl⟩ | ⟨rest, i, hi, he, he'⟩ := step_lockstep h h' rfl
  iterate 4 exact ⟨rfl, fun _ _ _ => rfl⟩
  cases hdec : isDecCommand i with
  | false =>
    refine ⟨(he'.dec_of_not_dec hdec).trans (he.dec_of_not_dec hdec).symm, fun j hj hdec' => ?_⟩
    simp [State.presents_unique hi hj, hdec'] at hdec
  | true =>
    obtain rfl := he'.unique (he.beside_cfg_enc hdec cfg enc)
    exact ⟨rfl, fun _ _ _ => rfl⟩

/-- Settles O33: a command reads only the unit it writes, and `CHID` with its flag for ENC. -/
theorem unitsReadOnlyTheirOwnState : Obligations.UnitsReadOnlyTheirOwnState :=
  fun _ _ _ _ _ _ h => ⟨step_beside_dec h, step_beside_cfg_enc h⟩

/-! ## `CHID` while it is invalid (R24, U5) -/

/-- `s` with another value in the register `CHID`. -/
def State.withChid (v : ChannelId) (s : State) : State := { s with cfg := { s.cfg with chid := v } }

/-- While no channel is valid and no encode in progress, a command does the same whatever `CHID` holds, and either loads the
register or leaves the channel invalid. -/
theorem Effect.withChid (he : Effect s i t) (hb : s.enc.ebusy = false) (hv : s.cfg.chidV = false) (v : ChannelId) :
    ∃ t', Effect (s.withChid v) i t' ∧ (t' = t ∨ (t' = t.withChid v ∧ t.cfg.chidV = false)) := by
  cases he with
  | violation hs => exact ⟨_, .violation (by cases i <;> exact hs), .inr ⟨rfl, hv⟩⟩
  | chidRefused _ hw => exact ⟨_, .chidRefused hb hw, .inr ⟨rfl, rfl⟩⟩
  | chidLoaded _ hw => exact ⟨_, .chidLoaded hb hw, .inl rfl⟩
  | startWithoutChid => exact ⟨_, .startWithoutChid hb hv, .inr ⟨rfl, hv⟩⟩
  | encStarted _ hv' => simp [hv] at hv'
  | encPut hb' | encEnded hb' => simp [hb] at hb'
  | decStarted hd => exact ⟨_, .decStarted hd, .inr ⟨rfl, hv⟩⟩
  | decPut hd => exact ⟨_, .decPut hd, .inr ⟨rfl, hv⟩⟩
  | decEoc hd => exact ⟨_, .decEoc hd, .inr ⟨rfl, hv⟩⟩
  | decEnded hd => exact ⟨_, .decEnded hd, .inr ⟨rfl, hv⟩⟩

theorem step_withChid (h : step s = .next t) (hb : s.enc.ebusy = false) (hv : s.cfg.chidV = false) (v : ChannelId) :
    ∃ t', step (s.withChid v) = .next t' ∧ (t' = t ∨ (t' = t.withChid v ∧ t.cfg.chidV = false)) := by
  obtain ⟨hp, rfl⟩ | ⟨_, _, hp, rfl⟩ | ⟨_, hp, rfl⟩ | ⟨_, rest, i, hp, hd, he⟩ | ⟨_, _, _, hp, hd, rfl⟩ :=
    step_cases h
  · exact ⟨_, step_of_idle hp, .inr ⟨rfl, hv⟩⟩
  · exact ⟨_, step_of_take hp, .inr ⟨rfl, hv⟩⟩
  · exact ⟨_, step_of_reset hp, .inl rfl⟩
  · obtain ⟨t', he', ht'⟩ := (effect_of_exec he).withChid hb hv v
    have hs : step (s.withChid v) = exec i ((takeCommand rest s).withChid v) := step_of_command hp hd
    exact ⟨t', hs.trans (exec_of_effect he'), ht'⟩
  · exact ⟨_, step_of_illegal hp hd, .inr ⟨rfl, hv⟩⟩

end TwoRuns

/-- Settles O34: by (g) no encode is in progress, so the only command that could read `CHID`, or keep it while it becomes
valid, is refused. -/
theorem channelIsUnreadWhileInvalid : Obligations.ChannelIsUnreadWhileInvalid := by
  intro s t v hinv hv h
  have hb : s.enc.ebusy = false := Bool.eq_false_iff.2 fun hb => by simp [hinv.busyHasChid hb] at hv
  obtain ⟨t', h', rfl | ⟨rfl, ht⟩⟩ := step_withChid h hb hv v
  · exact ⟨_, h', rfl, rfl, rfl, rfl, rfl, fun _ => rfl⟩
  · exact ⟨_, h', rfl, rfl, rfl, rfl, rfl, fun ht' => by simp [ht] at ht'⟩

end Sys2Proof.Machine

/-! PROOF. The statements of the encodings (30_encoding.md). First the command words: that `encode` inverts `decode`, which
words decode to a command of a mnemonic, and from that the command table (R78), the illegal words (R80) and the assembler
(R86, R87). Then the response and output records (R82 to R84) and the data formats (R70 to R75). -/

namespace Sys2Proof

/-! ## Fields as numbers -/

theorem toNat_append_eq {m n : Nat} (x : BitVec m) (y : BitVec n) : (x ++ y).toNat = x.toNat * 2 ^ n + y.toNat := by
  rw [BitVec.toNat_append, Nat.shiftLeft_eq, Nat.mul_comm, Nat.two_pow_add_eq_or_of_lt y.isLt]

theorem toNat_extractLsb'_eq {n : Nat} (x : BitVec n) (k w : Nat) :
    (x.extractLsb' k w).toNat = x.toNat / 2 ^ k % 2 ^ w := by
  rw [BitVec.extractLsb'_toNat, Nat.shiftRight_eq_div_pow]

/-! ## Command words (R77 to R79) -/

section CommandWords

variable {w : Word} {i : Instr} {op : BitVec 8}

theorem encode_of_decodePlain {j : Instr} (hop : opField w = op) (h : decodePlain w j = .command i)
    (hj : encode j = packWord op 0 0) : encode i = w := by
  unfold decodePlain decodeReserved at h
  split_ifs at h with hrsv himm
  obtain rfl := Decoded.command.inj h
  rw [hj, ← hop, ← hrsv, ← himm, packWord_fields]

theorem encode_of_decodeByte {mk : Byte → Instr} (hop : opField w = op) (h : decodeByte w mk = .command i)
    (hmk : ∀ b, encode (mk b) = packWord op 0 (b.setWidth 16)) : encode i = w := by
  unfold decodeByte decodeReserved at h
  split_ifs at h with hrsv hhigh
  obtain rfl := Decoded.command.inj h
  rw [hmk, immField_of_high_zero w hhigh, ← hop, ← hrsv, packWord_fields]

/-- The second half of R78's agreement: `OP` selects the command, and the checks of R80 fix every other bit. -/
theorem encode_of_decode (h : decode w = .command i) : encode i = w := by
  unfold decode at h
  split_ifs at h with hop hop hop hop hop hop hop hop
  · unfold decodeReserved at h
    split_ifs at h with hrsv
    obtain rfl := Decoded.command.inj h
    rw [encode, ← hop, ← hrsv, packWord_fields]
  · exact encode_of_decodePlain hop h rfl
  · exact encode_of_decodeByte hop h fun _ => rfl
  · exact encode_of_decodePlain hop h rfl
  · exact encode_of_decodePlain hop h rfl
  · exact encode_of_decodeByte hop h fun _ => rfl
  · exact encode_of_decodePlain hop h rfl
  · exact encode_of_decodePlain hop h rfl

theorem decode_eq_command_iff : decode w = .command i ↔ encode i = w :=
  ⟨encode_of_decode, fun h => h ▸ Machine.decode_encode i⟩

theorem decode_illegal_iff : (∃ why, decode w = .illegal why) ↔ ¬ ∃ i, decode w = .command i := by
  cases decode w <;> simp

end CommandWords

/-- Settles O1: `decode` and `encode` are inverse to each other. -/
theorem decodeEncodeAgree : Obligations.DecodeEncodeAgree :=
  ⟨Machine.decode_encode, fun _ _ => encode_of_decode⟩

/-! ## The words of a mnemonic (R78, R79) -/

/-- The field `OP` of each mnemonic's words (R78). -/
def Mnemonic.opCode : Mnemonic → BitVec 8
  | .cfgChid => 0x01
  | .encStart => 0x10
  | .encPut => 0x11
  | .encEnd => 0x12
  | .decStart => 0x20
  | .decPut => 0x21
  | .decEoc => 0x22
  | .decEnd => 0x23

/-- The largest value `IMM` may have in a word of the mnemonic: 0 where there is no operand (R79). -/
def Mnemonic.immMax (m : Mnemonic) : Nat := m.operandMax.getD 0

section MnemonicWords

variable {w : Word} {m : Mnemonic} {n : Nat}

theorem Mnemonic.immMax_le (m : Mnemonic) : m.immMax ≤ 65535 := by
  cases m <;> decide

theorem setWidth_ofNat_byte (h : n ≤ 255) : (BitVec.ofNat 8 n).setWidth 16 = BitVec.ofNat 16 n := by
  apply BitVec.eq_of_toNat_eq
  rw [BitVec.toNat_setWidth, BitVec.toNat_ofNat, BitVec.toNat_ofNat]
  omega

/-- The word of a mnemonic and an operand that fits its field. -/
theorem encode_toInstr (h : n ≤ m.immMax) : encode (m.toInstr n) = packWord m.opCode 0 (BitVec.ofNat 16 n) := by
  cases m with
  | cfgChid => rfl
  | encPut | decPut => exact congrArg (packWord _ 0) (setWidth_ofNat_byte h)
  | encStart | encEnd | decStart | decEoc | decEnd =>
    obtain rfl : n = 0 := Nat.le_zero.1 h
    rfl

theorem mnemonic_toInstr : (m.toInstr n).mnemonic = m := by
  cases m <;> rfl

/-- Every command is a mnemonic with an operand that fits its field. -/
theorem exists_toInstr (i : Instr) : ∃ n ≤ i.mnemonic.immMax, i = i.mnemonic.toInstr n := by
  cases i with
  | cfgChid v => exact ⟨v.toNat, Nat.le_of_lt_succ v.isLt, by simp [Mnemonic.toInstr, Instr.mnemonic]⟩
  | encPut b | decPut b => exact ⟨b.toNat, Nat.le_of_lt_succ b.isLt, by simp [Mnemonic.toInstr, Instr.mnemonic]⟩
  | encStart | encEnd | decStart | decEoc | decEnd => exact ⟨0, Nat.zero_le _, rfl⟩

/-- Which words decode to a command of a mnemonic: the fields say it (R77 to R79). -/
theorem decodes_to_mnemonic_iff : (∃ i, decode w = .command i ∧ i.mnemonic = m) ↔
    opField w = m.opCode ∧ rsvField w = 0 ∧ (immField w).toNat ≤ m.immMax := by
  constructor
  · rintro ⟨i, hd, rfl⟩
    obtain ⟨n, hn, hi⟩ := exists_toInstr i
    have hw : packWord i.mnemonic.opCode 0 (BitVec.ofNat 16 n) = w := by
      rw [← encode_toInstr hn, ← hi, encode_of_decode hd]
    rw [← hw, opField_packWord, rsvField_packWord, immField_packWord]
    exact ⟨rfl, rfl, (Nat.mod_le ..).trans hn⟩
  · rintro ⟨hop, hrsv, himm⟩
    refine ⟨m.toInstr (immField w).toNat, ?_, mnemonic_toInstr⟩
    rw [decode_eq_command_iff, encode_toInstr himm, ← hop, ← hrsv, BitVec.ofNat_toNat, BitVec.setWidth_eq,
      packWord_fields]

end MnemonicWords

/-! ## The command table (R78) -/

theorem packWord_and (op op' rsv rsv' : BitVec 8) (imm imm' : BitVec 16) :
    packWord op rsv imm &&& packWord op' rsv' imm' = packWord (op &&& op') (rsv &&& rsv') (imm &&& imm') :=
  BitVec.and_append.trans (congrArg (· ++ _) BitVec.and_append)

theorem packWord_inj {op op' rsv rsv' : BitVec 8} {imm imm' : BitVec 16} :
    packWord op rsv imm = packWord op' rsv' imm' ↔ op = op' ∧ rsv = rsv' ∧ imm = imm' := by
  constructor
  · intro h
    exact ⟨by simpa using congrArg opField h, by simpa using congrArg rsvField h, by simpa using congrArg immField h⟩
  · rintro ⟨rfl, rfl, rfl⟩
    rfl

/-- The bits of `IMM` that a mnemonic's mask covers: those no operand of it can set (R78). -/
def Mnemonic.immMask (m : Mnemonic) : BitVec 16 := ~~~ BitVec.ofNat 16 m.immMax

/-- A mask of the upper byte is 0 exactly on the values of the lower byte. -/
theorem and_highByte_eq_zero_iff (v : BitVec 16) : v &&& 0xFF00 = 0 ↔ v.toNat ≤ 255 := by
  have hv : v.extractLsb' 8 8 ++ v.extractLsb' 0 8 = v :=
    (BitVec.extractLsb'_append_extractLsb'_eq_extractLsb' rfl).trans BitVec.extractLsb'_eq_self
  have hmask : v &&& 0xFF00 = v.extractLsb' 8 8 ++ 0#8 := by
    conv_lhs => rw [← hv, show (0xFF00 : BitVec 16) = BitVec.allOnes 8 ++ 0#8 from rfl, BitVec.and_append]
    rw [BitVec.and_allOnes, BitVec.and_zero]
  rw [hmask, show (0 : BitVec 16) = 0#8 ++ 0#8 from rfl, BitVec.append_left_inj, ← BitVec.toNat_inj,
    toNat_extractLsb'_eq]
  have := v.isLt
  show _ = 0 ↔ _
  omega

theorem and_immMask_eq_zero_iff (m : Mnemonic) (v : BitVec 16) : v &&& m.immMask = 0 ↔ v.toNat ≤ m.immMax := by
  cases m with
  | cfgChid => exact iff_of_true BitVec.and_zero (Nat.le_of_lt_succ v.isLt)
  | encPut | decPut => exact and_highByte_eq_zero_iff v
  | encStart | encEnd | decStart | decEoc | decEnd =>
    have hmask : v &&& BitVec.allOnes 16 = v := BitVec.and_allOnes
    exact (Eq.congr_left hmask).trans (BitVec.toNat_inj.symm.trans Nat.le_zero.symm)

theorem table_row_fields : ∀ r ∈ opcodeTable,
    r.matchBits = packWord r.mnemonic.opCode 0 0 ∧ r.mask = packWord (.allOnes 8) (.allOnes 8) r.mnemonic.immMask := by
  decide

theorem table_row_unique : ∀ r ∈ opcodeTable, ∀ r' ∈ opcodeTable, r.mnemonic = r'.mnemonic → r = r' := by
  decide

theorem table_has_row (m : Mnemonic) : ∃ r ∈ opcodeTable, r.mnemonic = m := by
  cases m <;> decide

/-- A row of the table accepts the words that decode to a command of its mnemonic (R78). -/
theorem accepts_iff {w : Word} {r : OpcodeRow} (hr : r ∈ opcodeTable) :
    r.accepts w = true ↔ ∃ i, decode w = .command i ∧ i.mnemonic = r.mnemonic := by
  obtain ⟨hmatch, hmask⟩ := table_row_fields r hr
  rw [decodes_to_mnemonic_iff, ← and_immMask_eq_zero_iff, OpcodeRow.accepts, beq_iff_eq, hmatch, hmask,
    ← packWord_fields w, packWord_and, packWord_inj, packWord_fields, BitVec.and_allOnes,
    BitVec.and_allOnes]

/-- Settles O2: a row accepts exactly the words of its mnemonic, and every mnemonic has one row. -/
theorem decodeFollowsCommandTable : Obligations.DecodeFollowsCommandTable := by
  intro w
  refine ⟨fun r hr => (accepts_iff hr).1, fun r hr r' hr' h h' => ?_, fun hnone => ?_, fun i hd => ?_,
    fun v hd => ?_, fun b hd => ?_, fun b hd => ?_⟩
  · obtain ⟨i, hd, hi⟩ := (accepts_iff hr).1 h
    obtain ⟨i', hd', hi'⟩ := (accepts_iff hr').1 h'
    obtain rfl := Decoded.command.inj (hd.symm.trans hd')
    exact table_row_unique r hr r' hr' (hi.symm.trans hi')
  · rw [decode_illegal_iff]
    rintro ⟨i, hd⟩
    obtain ⟨r, hr, hm⟩ := table_has_row i.mnemonic
    exact Bool.eq_false_iff.1 (hnone r hr) ((accepts_iff hr).2 ⟨i, hd, hm.symm⟩)
  · obtain ⟨r, hr, hm⟩ := table_has_row i.mnemonic
    exact ⟨r, hr, (accepts_iff hr).2 ⟨i, hd, hm.symm⟩, hm⟩
  · rw [← immField_toNat, ← encode_of_decode hd, encode, immField_packWord]
  · rw [← immLowField_toNat, ← encode_of_decode hd, encode, immLowField_packWord_byte]
  · rw [← immLowField_toNat, ← encode_of_decode hd, encode, immLowField_packWord_byte]

/-! ## The illegal words (R80) -/

theorem op_used_iff (op : Nat) : op ∈ [0x01, 0x10, 0x11, 0x12, 0x20, 0x21, 0x22, 0x23] ↔
    ∃ m : Mnemonic, op = m.opCode.toNat := by
  constructor
  · intro hop
    simp only [List.mem_cons, List.not_mem_nil, or_false] at hop
    rcases hop with rfl | rfl | rfl | rfl | rfl | rfl | rfl | rfl
    exacts [⟨.cfgChid, rfl⟩, ⟨.encStart, rfl⟩, ⟨.encPut, rfl⟩, ⟨.encEnd, rfl⟩, ⟨.decStart, rfl⟩, ⟨.decPut, rfl⟩,
      ⟨.decEoc, rfl⟩, ⟨.decEnd, rfl⟩]
  · rintro ⟨m, rfl⟩
    cases m <;> decide

/-- An operand fits its field where neither (c) nor (d) of R80 holds. -/
theorem imm_fits_iff (m : Mnemonic) (n : Nat) : n % 2 ^ 16 ≤ m.immMax ↔
    (m.opCode.toNat ∈ [0x10, 0x12, 0x20, 0x22, 0x23] → n % 2 ^ 16 = 0) ∧
    (m.opCode.toNat ∈ [0x11, 0x21] → n / 2 ^ 8 % 256 = 0) := by
  cases m with
  | cfgChid | encPut | decPut => simp [Mnemonic.immMax, Mnemonic.operandMax, Mnemonic.opCode]; omega
  | encStart | encEnd | decStart | decEoc | decEnd => simp [Mnemonic.immMax, Mnemonic.operandMax, Mnemonic.opCode]

/-- The words that decode, by their fields as numbers: those of none of the cases (a) to (d) of R80. -/
theorem decodes_iff (w : Word) : (∃ i, decode w = .command i) ↔
    w.toNat / 2 ^ 24 ∈ [0x01, 0x10, 0x11, 0x12, 0x20, 0x21, 0x22, 0x23] ∧
    w.toNat / 2 ^ 16 % 256 = 0 ∧
    (w.toNat / 2 ^ 24 ∈ [0x10, 0x12, 0x20, 0x22, 0x23] → w.toNat % 2 ^ 16 = 0) ∧
    (w.toNat / 2 ^ 24 ∈ [0x11, 0x21] → w.toNat / 2 ^ 8 % 256 = 0) := by
  have hfields (m : Mnemonic) : (∃ i, decode w = .command i ∧ i.mnemonic = m) ↔
      w.toNat / 2 ^ 24 = m.opCode.toNat ∧ w.toNat / 2 ^ 16 % 256 = 0 ∧ w.toNat % 2 ^ 16 ≤ m.immMax := by
    rw [decodes_to_mnemonic_iff, ← BitVec.toNat_inj, ← BitVec.toNat_inj, opField_toNat, rsvField_toNat, immField_toNat]
    rfl
  rw [op_used_iff]
  constructor
  · rintro ⟨i, hd⟩
    obtain ⟨hop, hrsv, himm⟩ := (hfields i.mnemonic).1 ⟨i, hd, rfl⟩
    exact ⟨⟨_, hop⟩, hrsv, hop ▸ (imm_fits_iff ..).1 himm⟩
  · rintro ⟨⟨m, hop⟩, hrsv, himm⟩
    obtain ⟨i, hd, _⟩ := (hfields m).2 ⟨hop, hrsv, (imm_fits_iff ..).2 (hop ▸ himm)⟩
    exact ⟨i, hd⟩

/-- Settles O3: (a) to (d) are the ways a word can fail to decode, and no arm of `exec` runs for such a word. -/
theorem illegalEncodingsAreTheFourCases : Obligations.IllegalEncodingsAreTheFourCases := by
  refine ⟨fun w => ?_, fun s w rest why hp hd => Machine.step_of_illegal hp hd, ⟨.unusedOp, by decide⟩,
    ⟨.unusedOp, by decide⟩⟩
  rw [decode_illegal_iff, decodes_iff]
  tauto

/-! ## The assembler (R86, R87) -/

theorem operand_fits_of_wf {m : Mnemonic} {operand : Option Nat} (h : (AsmLine.command m operand).wf = true) :
    operand.getD 0 ≤ m.immMax := by
  rw [Mnemonic.immMax]
  cases hm : m.operandMax <;> cases operand <;> simp_all [AsmLine.wf]

theorem packWord_eq_add (op : BitVec 8) {n : Nat} (h : n ≤ 65535) :
    packWord op 0 (BitVec.ofNat 16 n) = packWord op 0 0 + BitVec.ofNat 32 n := by
  have := op.isLt
  apply BitVec.eq_of_toNat_eq
  rw [BitVec.toNat_add, packWord_toNat, packWord_toNat, BitVec.toNat_ofNat, BitVec.toNat_ofNat]
  simp
  omega

theorem assemble_of_wf {l : AsmLine} (h : l.wf = true) : l.assemble = some (l.expand.map encode) :=
  if_pos h

/-- A row's mnemonic with an operand assembles to `match + operand` (R86). -/
theorem assemble_command {r : OpcodeRow} (hr : r ∈ opcodeTable) {operand : Option Nat}
    (h : (AsmLine.command r.mnemonic operand).wf = true) :
    (AsmLine.command r.mnemonic operand).assemble = some [r.matchBits + BitVec.ofNat 32 (operand.getD 0)] := by
  have hn := operand_fits_of_wf h
  rw [assemble_of_wf h, (table_row_fields r hr).1, ← packWord_eq_add _ (hn.trans r.mnemonic.immMax_le),
    ← encode_toInstr hn]
  rfl

/-- Settles O5: an accepted line is the encoding of its expansion, which decodes back; the expansions are R87's. -/
theorem assemblerGivesTheWordsOfTheLine : Obligations.AssemblerGivesTheWordsOfTheLine := by
  refine ⟨fun l h => ⟨_, assemble_of_wf h, ?_⟩, fun l h => if_neg (by simp [h]),
    fun r hr operand => assemble_command hr, fun _ => rfl, fun _ => rfl, fun _ _ => rfl, fun _ _ => rfl⟩
  rw [List.map_map]
  exact List.map_congr_left fun i _ => Machine.decode_encode i

end Sys2Proof

namespace Sys2Proof.Machine

/-! ## Response records (R82) -/

section Responses

variable {s t : State} {w : Word}

/-- The word is of a command that R82 and R159 answer from the group's flags. -/
def GroupWord (w : Word) : Prop :=
  (∃ b, decode w = .command (.decPut b)) ∨ decode w = .command .decEoc ∨ decode w = .command .decEnd

/-- The responses a word may get while `DCCW` is `dccw` after it: from the group's flags, from another command, or for what
is refused as illegal. -/
inductive Answer (w : Word) (dccw : Bool) : RspRecord → Prop
  | group (hw : GroupWord w) (dfail : Bool) : Answer w dccw (rspRecord (groupCode dfail) dccw)
  | other (hw : ¬ GroupWord w) {code : RspCode} (hc : code ≠ .framingError) : Answer w dccw (rspRecord code false)
  | illegal : Answer w dccw (rspRecord .illegalCommand false)

theorem Effect.answer {i : Instr} (he : Effect s i t) (hd : decode w = .command i) :
    ∃ r, t.rsp = s.rsp ++ [r] ∧ Answer w t.dec.dccw r := by
  cases he with
  | violation => exact ⟨_, rfl, .illegal⟩
  | decPut | decEoc | decEnded => exact ⟨_, rfl, .group (by simp [GroupWord, hd]) _⟩
  | chidRefused | chidLoaded | startWithoutChid | encStarted | encPut | encEnded | decStarted =>
    exact ⟨_, rfl, .other (by simp [GroupWord, hd]) (by decide)⟩

theorem answer_of_step {rest : List HostEvent} (hp : s.host.pending = .command w :: rest) (h : step s = .next t) :
    ∃ r, t.rsp = s.rsp ++ [r] ∧ Answer w t.dec.dccw r := by
  cases hd : decode w with
  | command i => exact (effect_of_exec ((step_of_command hp hd).symm.trans h)).answer hd
  | illegal why =>
    obtain rfl := Host.Outcome.next.inj ((step_of_illegal hp hd).symm.trans h)
    exact ⟨_, rfl, .illegal⟩

theorem rspRecord_upper (code : RspCode) (ccw : Bool) : (rspRecord code ccw).extractLsb' 3 5 = 0 := by
  cases code <;> cases ccw <;> rfl

theorem rspRecord_ccw (code : RspCode) (ccw : Bool) : (rspRecord code ccw).getLsbD 2 = ccw := by
  cases code <;> cases ccw <;> rfl

theorem rspRecord_code (code : RspCode) (ccw : Bool) : (rspRecord code ccw).extractLsb' 0 2 = code.bits := by
  cases code <;> cases ccw <;> rfl

variable {dccw : Bool} {r : RspRecord}

theorem Answer.legal (ha : Answer w dccw r) : r ∈ legalResponses := by
  cases ha with
  | group _ dfail => cases dfail <;> cases dccw <;> decide
  | @other _ code hc => cases code <;> decide +revert
  | illegal => decide

theorem Answer.upper (ha : Answer w dccw r) : r.extractLsb' 3 5 = 0 := by
  cases ha <;> exact rspRecord_upper ..

/-- `CCW` is 0 unless the response came from the group's flags, and then its `CODE` is 0 or 2. -/
theorem Answer.ccw (ha : Answer w dccw r) :
    (GroupWord w → (r.extractLsb' 0 2 = 0 ∨ r.extractLsb' 0 2 = 2) → r.getLsbD 2 = dccw) ∧
    (¬ GroupWord w → r.getLsbD 2 = false) ∧
    (r.extractLsb' 0 2 = 1 ∨ r.extractLsb' 0 2 = 3 → r.getLsbD 2 = false) := by
  cases ha with
  | group hw dfail =>
    rw [rspRecord_ccw, rspRecord_code]
    refine ⟨fun _ _ => rfl, fun hn => absurd hw hn, ?_⟩
    cases dfail <;> simp [groupCode, RspCode.bits]
  | other hw => exact ⟨fun hg => absurd hg hw, fun _ => rspRecord_ccw .., fun _ => rspRecord_ccw ..⟩
  | illegal =>
    rw [rspRecord_ccw, rspRecord_code]
    exact ⟨fun _ hc => absurd hc (by decide), fun _ => rfl, fun _ => rfl⟩

end Responses

/-- Settles O22: the three kinds of answer, and what each puts into the record. -/
theorem responseRecordFollowsItsRule : Obligations.ResponseRecordFollowsItsRule := by
  intro s t w rest hp h
  obtain ⟨r, hr, ha⟩ := answer_of_step hp h
  exact ⟨r, hr, ha.legal, ha.upper, ha.ccw⟩

/-! ## The channels `DOUT` and `RSP` (R82, R84) -/

theorem Effect.keeps_doutFramed {i : Instr} {s t : State} (he : Effect s i t) (h : DoutFramed s) : DoutFramed t := by
  cases he with
  | decEnded =>
    obtain ⟨outs, hout⟩ := h
    obtain ⟨_, _, hd⟩ | ⟨_, hd⟩ := finishGroup_cases s.dec
    · exact ⟨outs ++ [s.dec.acc], by simp [hd, hout]⟩
    · exact ⟨outs, by simp [hd, hout]⟩
  | decPut | decEoc => simpa [DoutFramed] using h
  | _ => exact h

theorem step_keeps_doutFramed {s t : State} (h : step s = .next t) (hf : DoutFramed s) : DoutFramed t := by
  obtain ⟨_, _, hd⟩ | ⟨_, _, rfl⟩ | ⟨_, _, _, he⟩ := step_changes h
  · rwa [DoutFramed, hd]
  · exact hf
  · exact he.keeps_doutFramed hf

theorem step_keeps_responsesLegal {s t : State} (h : step s = .next t) (hl : ResponsesLegal s) : ResponsesLegal t := by
  by_cases hp : ∃ w rest, s.host.pending = .command w :: rest
  · obtain ⟨w, rest, hp⟩ := hp
    obtain ⟨r, hr, ha⟩ := answer_of_step hp h
    simpa [ResponsesLegal, hr, or_imp, forall_and] using ⟨hl, ha.legal⟩
  · rw [ResponsesLegal, step_rsp_of_not_presented h fun w rest hw => hp ⟨w, rest, hw⟩]
    exact hl

/-- Settles O29: only `DEC.END` writes `DOUT`, a whole closed buffer at a time, and every answer is one of R82's. -/
theorem doutAndRspStayWellFormed : Obligations.DoutAndRspStayWellFormed :=
  ⟨⟨[], rfl⟩, nofun, fun _ _ h => ⟨step_keeps_doutFramed h, step_keeps_responsesLegal h⟩⟩

/-! ## Output records (R83, R84) -/

@[simp] theorem isMark_dataRecord (b : Byte) : isMark (dataRecord b) = false := by
  rw [isMark, dataRecord, BitVec.getLsbD_append]
  rfl

@[simp] theorem recordData_dataRecord (b : Byte) : recordData (dataRecord b) = b := by
  apply BitVec.eq_of_toNat_eq
  rw [recordData, toNat_extractLsb'_eq, dataRecord, show (0#1 ++ b : BitVec 9).toNat = _ from toNat_append_eq 0#1 b]
  simp [Nat.mod_eq_of_lt b.isLt]

/-- HOST's reading of one closed container, begun with the bytes `opened` already read, and of what follows it. -/
theorem readRuns_closedRecords (c opened : Bytes) (rest : List OutRecord) :
    readRuns opened (closedRecords c ++ rest) = ((opened ++ c) :: (readRuns [] rest).1, (readRuns [] rest).2) := by
  induction c generalizing opened with
  | nil => simp [closedRecords, readRuns, show isMark markRecord = true from rfl]
  | cons b c ih =>
    have hstep : readRuns opened (closedRecords (b :: c) ++ rest) =
        readRuns (opened ++ [b]) (closedRecords c ++ rest) := by
      simp [closedRecords, readRuns]
    rw [hstep, ih, List.append_assoc, List.singleton_append]

/-- Settles O58: each closed container is read back whole, with nothing left open before the next. -/
theorem hostReadsBackTheContainers : Obligations.HostReadsBackTheContainers := by
  intro cs
  induction cs with
  | nil => rfl
  | cons c cs ih => rw [List.flatMap_cons, readRuns_closedRecords, ih, List.nil_append]

/-! ## Bit fields of a byte sequence (R12) -/

section BitFields

variable (s : Bytes)

/-- A field inside one byte, after the first `k` bits of byte `i`. -/
theorem fieldAtOffset_inside (i k w : Nat) (h : k + w ≤ 8) :
    fieldAtOffset s (8 * i + k) w = (byteAt s i).toNat / 2 ^ (8 - k - w) % 2 ^ w := by
  induction w with
  | zero => simp [fieldAtOffset, Nat.mod_one]
  | succ w ih =>
    have hbit : (bitAtOffset s (8 * i + k + w)).toNat = (byteAt s i).toNat / 2 ^ (8 - k - (w + 1)) % 2 := by
      rw [bitAtOffset, show (8 * i + k + w) / 8 = i by omega, show 7 - (8 * i + k + w) % 8 = 8 - k - (w + 1) by omega,
        ← BitVec.testBit_toNat, Nat.toNat_testBit]
    rw [fieldAtOffset, ih (by omega), hbit, show 8 - k - w = 8 - k - (w + 1) + 1 by omega, Nat.pow_succ,
      ← Nat.div_div_eq_div_mul, Nat.pow_succ', Nat.mod_mul, Nat.add_comm]

theorem fieldAtOffset_byte (i : Nat) : fieldAtOffset s (8 * i) 8 = (byteAt s i).toNat := by
  simpa [Nat.mod_eq_of_lt (byteAt s i).isLt] using fieldAtOffset_inside s i 0 8 (by decide)

/-- A field is the two fields it is cut into, the first the more significant. -/
theorem fieldAtOffset_append (k a b : Nat) :
    fieldAtOffset s k (a + b) = fieldAtOffset s k a * 2 ^ b + fieldAtOffset s (k + a) b := by
  induction b with
  | zero => simp [fieldAtOffset]
  | succ b ih => rw [← Nat.add_assoc, fieldAtOffset, ih, fieldAtOffset, Nat.add_assoc k, Nat.pow_succ]; ring

end BitFields

/-! ## The packet header (R70 to R73) -/

section Header

variable (chid : ChannelId) (cc : Count4) (rest : Bytes)

/-- The four bytes of a packed header as numbers (R72). -/
theorem byteAt_packHeader :
    byteAt (packHeader chid cc ++ rest) 0 = 0x47 ∧
    (byteAt (packHeader chid cc ++ rest) 1).toNat = 64 + chid.toNat / 256 ∧
    (byteAt (packHeader chid cc ++ rest) 2).toNat = chid.toNat % 256 ∧
    (byteAt (packHeader chid cc ++ rest) 3).toNat = 16 + cc.toNat := by
  have := chid.isLt
  refine ⟨rfl, ?_, ?_, ?_⟩
  · show (0b010#3 ++ chid.extractLsb' 8 5 : BitVec 8).toNat = _
    rw [toNat_append_eq, toNat_extractLsb'_eq, show (0b010#3).toNat = 2 from rfl]
    omega
  · show (chid.extractLsb' 0 8).toNat = _
    rw [toNat_extractLsb'_eq, Nat.pow_zero, Nat.div_one, show 2 ^ 8 = 256 from rfl]
  · show (0b0001#4 ++ cc : BitVec 8).toNat = _
    rw [toNat_append_eq]
    rfl

end Header

/-- Settles O39: each field lies in one byte but `CHIDF` and the whole header, which are cut at the byte boundaries. -/
theorem headerFieldsStandAtTheirOffsets : Obligations.HeaderFieldsStandAtTheirOffsets := by
  rintro chid cc rest P rfl
  obtain ⟨h0, h1, h2, h3⟩ := byteAt_packHeader chid cc rest
  have hchid := chid.isLt
  have hcc := cc.isLt
  generalize packHeader chid cc ++ rest = P at *
  have b0 : fieldAtOffset P 0 8 = 0x47 := (fieldAtOffset_byte P 0).trans (congrArg BitVec.toNat h0)
  have b1 : fieldAtOffset P 8 8 = 64 + chid.toNat / 256 := (fieldAtOffset_byte P 1).trans h1
  have b2 : fieldAtOffset P 16 8 = chid.toNat % 256 := (fieldAtOffset_byte P 2).trans h2
  have b3 : fieldAtOffset P 24 8 = 16 + cc.toNat := (fieldAtOffset_byte P 3).trans h3
  have hchidf : fieldAtOffset P 11 5 = chid.toNat / 256 :=
    (fieldAtOffset_inside P 1 3 5 (by decide)).trans (by rw [h1]; omega)
  refine ⟨rfl, b0, ?_, ?_, ?_, ?_, ?_, ?_, ?_, ?_⟩
  · exact (fieldAtOffset_inside P 1 0 1 (by decide)).trans (by rw [h1]; omega)
  · exact (fieldAtOffset_inside P 1 1 1 (by decide)).trans (by rw [h1]; omega)
  · exact (fieldAtOffset_inside P 1 2 1 (by decide)).trans (by rw [h1]; omega)
  · rw [fieldAtOffset_append P 11 5 8, hchidf, b2]
    omega
  · exact (fieldAtOffset_inside P 3 0 2 (by decide)).trans (by rw [h3]; omega)
  · exact (fieldAtOffset_inside P 3 2 2 (by decide)).trans (by rw [h3]; omega)
  · exact (fieldAtOffset_inside P 3 4 4 (by decide)).trans (by rw [h3]; omega)
  · rw [fieldAtOffset_append P 0 24 8, fieldAtOffset_append P 0 16 8, fieldAtOffset_append P 0 8 8, b0, b1, b2, b3]
    omega

/-- `UnpackHeader` as numbers of the four bytes (R73). -/
theorem unpackHeader_toNat (h : Bytes) :
    (unpackHeader h).syncf = byteAt h 0 ∧
    (unpackHeader h).erri.toNat = (byteAt h 1).toNat / 128 ∧
    (unpackHeader h).pstart.toNat = (byteAt h 1).toNat / 64 % 2 ∧
    (unpackHeader h).prio.toNat = (byteAt h 1).toNat / 32 % 2 ∧
    (unpackHeader h).chidf.toNat = (byteAt h 1).toNat % 32 * 256 + (byteAt h 2).toNat ∧
    (unpackHeader h).scr.toNat = (byteAt h 3).toNat / 64 ∧
    (unpackHeader h).afc.toNat = (byteAt h 3).toNat / 16 % 4 ∧
    (unpackHeader h).ccf.toNat = (byteAt h 3).toNat % 16 := by
  have := (byteAt h 1).isLt
  have := (byteAt h 2).isLt
  have := (byteAt h 3).isLt
  refine ⟨rfl, (toNat_extractLsb'_eq ..).trans ?_, toNat_extractLsb'_eq .., toNat_extractLsb'_eq .., ?_,
    (toNat_extractLsb'_eq ..).trans ?_, toNat_extractLsb'_eq .., (toNat_extractLsb'_eq ..).trans ?_⟩
  · omega
  · refine (toNat_append_eq ((byteAt h 1).extractLsb' 0 5) (byteAt h 2)).trans ?_
    rw [toNat_extractLsb'_eq]
    omega
  · omega
  · omega

/-- `UnpackHeader` inverts `PackHeader`, whatever follows the four bytes. -/
theorem unpackHeader_packHeader (chid : ChannelId) (cc : Count4) (rest : Bytes) :
    unpackHeader (packHeader chid cc ++ rest) =
      { syncf := 0x47, erri := 0, pstart := 1, prio := 0, chidf := chid, scr := 0, afc := 1, ccf := cc } := by
  obtain ⟨h0, h1, h2, h3⟩ := byteAt_packHeader chid cc rest
  obtain ⟨u0, u1, u2, u3, u4, u5, u6, u7⟩ := unpackHeader_toNat (packHeader chid cc ++ rest)
  have := chid.isLt
  have := cc.isLt
  generalize packHeader chid cc ++ rest = P at *
  rw [h1] at u1 u2 u3 u4
  rw [h2] at u4
  rw [h3] at u5 u6 u7
  have erri : (64 + chid.toNat / 256) / 128 = 0 := by omega
  have pstart : (64 + chid.toNat / 256) / 64 % 2 = 1 := by omega
  have prio : (64 + chid.toNat / 256) / 32 % 2 = 0 := by omega
  have chidf : (64 + chid.toNat / 256) % 32 * 256 + chid.toNat % 256 = chid.toNat := by omega
  have scr : (16 + cc.toNat) / 64 = 0 := by omega
  have afc : (16 + cc.toNat) / 16 % 4 = 1 := by omega
  have ccf : (16 + cc.toNat) % 16 = cc.toNat := by omega
  rw [Header.mk.injEq]
  exact ⟨u0.trans h0, BitVec.eq_of_toNat_eq (u1.trans erri), BitVec.eq_of_toNat_eq (u2.trans pstart),
    BitVec.eq_of_toNat_eq (u3.trans prio), BitVec.eq_of_toNat_eq (u4.trans chidf), BitVec.eq_of_toNat_eq (u5.trans scr),
    BitVec.eq_of_toNat_eq (u6.trans afc), BitVec.eq_of_toNat_eq (u7.trans ccf)⟩

theorem byteAt_drop (s : Bytes) (k i : Nat) : byteAt (s.drop k) i = byteAt s (k + i) := by
  simp [byteAt, List.getD]

/-- DEC's reading of the head and the data looks at nothing before byte 4 (R152 to R154). -/
theorem readHead_of_drop_eq (p : Build) {P Q : Bytes} (h : P.drop 4 = Q.drop 4) : readHead p P = readHead p Q := by
  have hbyte (i : Nat) : byteAt P (4 + i) = byteAt Q (4 + i) := by
    rw [← byteAt_drop, ← byteAt_drop, h]
  have hstatus : readStatus P = readStatus Q := congrArg Status.ofByte (hbyte 0)
  have hlen : readLen P = readLen Q := by
    rw [readLen, readLen, hbyte 2, hbyte 3]
  have hdata : readData P = readData Q := by
    have hdrop : P.drop 8 = Q.drop 8 := by simpa using congrArg (List.drop 4) h
    rw [readData, readData, slice, slice, hdrop, hlen]
  rw [readHead, readHead, hstatus, hlen, hdata]

theorem foldPacket_of_drop_eq (p : Build) {P Q : Bytes} (d : Dec) (hccf : (unpackHeader P).ccf = (unpackHeader Q).ccf)
    (h : P.drop 4 = Q.drop 4) : foldPacket p P d = foldPacket p Q d := by
  have hcount : countPacket P d = countPacket Q d := by
    have hread : readCounter P = readCounter Q := hccf
    rw [countPacket, countPacket, hread]
  rw [foldPacket, foldPacket, readHead_of_drop_eq p h, hcount]

/-- Settles O40: the header's fields are read and written at the same places, and DEC reads `CCF` and what follows. -/
theorem unpackInvertsPack : Obligations.UnpackInvertsPack :=
  ⟨unpackHeader_toNat, unpackHeader_packHeader, fun p _ _ d => foldPacket_of_drop_eq p d⟩

/-! ## The layout of a packet (R75) -/

theorem byteAt_append_right (a b : Bytes) (i : Nat) : byteAt (a ++ b) (a.length + i) = byteAt b i := by
  simp [byteAt, List.getD, List.getElem?_append_right]

theorem byteAt_replicate {n i : Nat} (b : Byte) (h : i < n) : byteAt (List.replicate n b) i = b := by
  simp [byteAt, h]

/-- Settles O41, from the packet written out: eight bytes, the chunk, the stuffing. -/
theorem packetLayoutFollowsItsRule : Obligations.PacketLayoutFollowsItsRule := by
  rintro p chid cc st c P hp _ hc rfl
  have hsize := p.chunkSize_add hp
  have hbody (i : Nat) : byteAt (buildPacket p chid cc st c) (8 + i) =
      byteAt (c ++ List.replicate (p.chunkSize - c.length) stuffByte) i := by
    rw [buildPacket_eq]
    exact byteAt_append_right _ _ i
  refine ⟨buildPacket_length _ _ _ _ _ hp hc, rfl, rfl, rfl, ?_, fun i hi => ?_, fun i hi hi' => ?_⟩
  · have := (p.wf_iff.1 hp).2.1
    exact readLen_buildPacket p chid cc st c (by omega)
  · rw [hbody, byteAt_append_left _ _ _ hi]
  · obtain ⟨j, rfl⟩ := Nat.exists_eq_add_of_le hi
    rw [Nat.add_assoc, hbody, byteAt_append_right]
    exact byteAt_replicate _ (by omega)

end Sys2Proof.Machine

/-! PROOF. The statement of `CFG.CHID` (40_config.md). The word of a command with an operand is the word of the command with
the operand's bits set. -/

namespace Sys2Proof.Machine

theorem setWidth_eq_packWord (imm : BitVec 16) : imm.setWidth 32 = packWord 0 0 imm := by
  have := imm.isLt
  apply BitVec.eq_of_toNat_eq
  rw [packWord_toNat, BitVec.toNat_setWidth]
  simp
  omega

theorem packWord_or (op op' rsv rsv' : BitVec 8) (imm imm' : BitVec 16) :
    packWord op rsv imm ||| packWord op' rsv' imm' = packWord (op ||| op') (rsv ||| rsv') (imm ||| imm') :=
  BitVec.or_append.trans (congrArg (· ++ _) BitVec.or_append)

/-- Setting the bits of an operand in a word without operand (R77). -/
theorem packWord_or_setWidth (op : BitVec 8) (imm : BitVec 16) :
    packWord op 0 0 ||| imm.setWidth 32 = packWord op 0 imm := by
  rw [setWidth_eq_packWord, packWord_or]
  simp

theorem cfgChid_word (imm16 : BitVec 16) : 0x01000000 ||| imm16.setWidth 32 = encode (.cfgChid imm16) :=
  packWord_or_setWidth 0x01 imm16

/-- Settles O11: each case is one of the ways of `Effect`, and the operand that loads is the number itself. -/
theorem cfgChidFollowsItsRule : Obligations.CfgChidFollowsItsRule := by
  refine ⟨fun imm16 => ?_, fun imm16 s => ⟨fun hb => ?_, fun hb hv => ?_, fun hb hv => ?_⟩⟩
  · rw [cfgChid_word, decode_encode]
  · exact exec_of_effect (.violation hb)
  · exact exec_of_effect (.chidRefused hb hv)
  · exact exec_of_effect (.chidLoaded hb hv)

end Sys2Proof.Machine

/-! PROOF. The statements of the encoder (41_encoder.md). First its procedures and commands one by one (R118 to R122), then
what reaches `EOUT` (R125), then the function level: pieces of a sequence (R111, R124) and the laws of packets and containers
(R112, R126, R127). Last, the command level: runs of commands, and the loop invariant of one encode (R129). -/

namespace Sys2Proof.Machine

/-! ## The procedures (R118, R119) -/

theorem dataRecord_eq_ofNat (x : Byte) : dataRecord x = BitVec.ofNat 9 x.toNat := by
  apply BitVec.eq_of_toNat_eq
  rw [dataRecord, show (0#1 ++ x : BitVec 9).toNat = _ from toNat_append_eq 0#1 x, BitVec.toNat_ofNat]
  have := x.isLt
  simp
  omega

/-- The length of packets put one after the other. -/
theorem flatten_length_of_forall {α : Type} {k : Nat} {ls : List (List α)} (h : ∀ l ∈ ls, l.length = k) :
    ls.flatten.length = ls.length * k := by
  rw [List.length_flatten, List.map_congr_left h, List.map_const', List.sum_replicate, smul_eq_mul]

/-- Settles O20: the records of a container are those of its packets in turn, and its mark. -/
theorem flushContainerFollowsItsRule : Obligations.FlushContainerFollowsItsRule := by
  intro p e _ _ hsize
  have hrecords : closedRecords e.gbuf.flatten =
      e.gbuf.flatMap (fun P => P.map (fun x => BitVec.ofNat 9 x.toNat)) ++ [0x100] := by
    rw [closedRecords, List.map_flatten, List.flatMap, funext dataRecord_eq_ofNat]
    rfl
  constructor
  · rw [flushContainer, hrecords, List.append_assoc]
  · rw [flushContainer_eout, List.length_append, closedRecords_length, flatten_length_of_forall hsize, Nat.add_assoc]

theorem nextCount_eq_ofNat (v : Count4) : nextCount v = BitVec.ofNat 4 (v.toNat + 1) := by
  simp [nextCount, BitVec.ofNat_add]

/-- Settles O19: `pushPacket` is the first five lines of the rule, `flushIfFull` the last. -/
theorem emitPacketFollowsItsRule : Obligations.EmitPacketFollowsItsRule := by
  rintro p chid last e st pkts - - - hst rfl
  have hst : chooseStatus e.efirst last = st := by
    obtain ⟨hf, rfl⟩ | ⟨hf, rfl, rfl⟩ | ⟨hf, rfl, rfl⟩ := hst <;> simp [chooseStatus, hf]
  rw [emitPacket, pushPacket, hst, nextCount_eq_ofNat]
  rfl

/-! ## The commands (R120 to R122) -/

/-- Settles O12: each case is one of the ways of `Effect`. -/
theorem encStartFollowsItsRule : Obligations.EncStartFollowsItsRule := by
  refine ⟨decode_encode .encStart, fun s => ⟨fun hb => ?_, fun hb hv => ?_, fun hb hv => ?_⟩⟩
  · exact exec_of_effect (.violation hb)
  · exact exec_of_effect (.startWithoutChid hb hv)
  · exact exec_of_effect (.encStarted hb hv)

theorem encPut_word (imm8 : Byte) : 0x11000000 ||| imm8.setWidth 32 = encode (.encPut imm8) := by
  have hw : imm8.setWidth 32 = (imm8.setWidth 16).setWidth 32 := by simp
  rw [hw]
  exact packWord_or_setWidth 0x11 (imm8.setWidth 16)

theorem exec_encPut_of_busy {b : Byte} {s : State} {e : Enc} (hb : s.enc.ebusy = true)
    (he : putInput Config.build s.cfg.chid b s.enc = e) :
    exec (.encPut b) s = .next { s with enc := e, rsp := s.rsp ++ [0x00] } :=
  he ▸ exec_of_effect (.encPut hb)

theorem exec_encEnd_of_busy {s : State} {e : Enc} (hb : s.enc.ebusy = true)
    (he : finishEncode Config.build s.cfg.chid s.enc = e) :
    exec .encEnd s = .next { s with enc := e, rsp := s.rsp ++ [0x00] } :=
  he ▸ exec_of_effect (.encEnded hb)

theorem pushPacket_of_busy {p : Build} {chid : ChannelId} {last : Bool} {e : Enc} (hb : e.ebusy = true) :
    pushPacket p chid last e =
      { ebusy := true, efirst := false, cc := e.cc + 1, cbuf := [],
        gbuf := e.gbuf ++ [buildPacket p chid e.cc (chooseStatus e.efirst last) e.cbuf], eout := e.eout } := by
  rw [← hb]
  rfl

/-- Settles O13: the cases of `putInput`, and of `emitPacket` for a full chunk. -/
theorem encPutFollowsItsRule : Obligations.EncPutFollowsItsRule := by
  refine ⟨fun imm8 => by rw [encPut_word, decode_encode], fun imm8 s => ⟨fun hb => ?_, fun hb hc => ?_, ?_⟩⟩
  · exact exec_of_effect (.violation (by simp [sequenceViolation, hb]))
  · obtain ⟨hc', -⟩ | ⟨-, he⟩ := putInput_cases Config.build s.cfg.chid imm8 s.enc
    · exact absurd hc' hc
    · exact exec_encPut_of_busy hb he
  · rintro hb hc pkts rfl
    obtain ⟨-, hput⟩ | ⟨hc', -⟩ := putInput_cases Config.build s.cfg.chid imm8 s.enc
    · refine ⟨fun hm => exec_encPut_of_busy hb ?_, fun hm => exec_encPut_of_busy hb ?_⟩
      all_goals obtain ⟨hm', he⟩ | ⟨hm', he⟩ := emitPacket_cases Config.build s.cfg.chid false s.enc
      · rw [hput, he, pushPacket_of_busy hb]
        rfl
      · exact absurd hm hm'
      · exact absurd hm' hm
      · rw [hput, he, pushPacket_of_busy hb]
        rfl
    · exact absurd hc hc'

section FinishEncode

variable {p : Build} {e : Enc}

theorem finishEncode_of_empty (chid : ChannelId) (hc : e.cbuf = []) (hg : e.gbuf = []) :
    finishEncode p chid e = endEncode e := by
  obtain ⟨-, -, he⟩ | ⟨-, hg', -⟩ | ⟨hc', -⟩ := finishEncode_cases p chid e
  exacts [he, absurd hg hg', absurd hc hc']

theorem finishEncode_of_cbuf_nil (chid : ChannelId) (hc : e.cbuf = []) (hg : e.gbuf ≠ []) :
    finishEncode p chid e = endEncode (flushContainer e) := by
  obtain ⟨-, hg', -⟩ | ⟨-, -, he⟩ | ⟨hc', -⟩ := finishEncode_cases p chid e
  exacts [absurd hg' hg, he, absurd hc hc']

theorem finishEncode_of_cbuf (chid : ChannelId) (hc : e.cbuf ≠ []) :
    finishEncode p chid e = endEncode (flushContainer (pushPacket p chid true e)) := by
  obtain ⟨hc', -⟩ | ⟨hc', -⟩ | ⟨-, he⟩ := finishEncode_cases p chid e
  exacts [absurd hc' hc, absurd hc' hc, he]

end FinishEncode

/-- Settles O14: the cases of `finishEncode`. -/
theorem encEndFollowsItsRule : Obligations.EncEndFollowsItsRule := by
  refine ⟨decode_encode .encEnd, fun s => ⟨fun hb => ?_, fun hb hc hg => ?_, fun hb hc hg => ?_, fun hb hc => ?_⟩⟩
  · exact exec_of_effect (.violation (by simp [sequenceViolation, hb]))
  · exact exec_encEnd_of_busy hb (finishEncode_of_empty _ hc hg)
  · exact exec_encEnd_of_busy hb (finishEncode_of_cbuf_nil _ hc hg)
  · refine exec_encEnd_of_busy hb ?_
    rw [finishEncode_of_cbuf _ hc, pushPacket_of_busy hb]
    rfl

/-! ## What reaches `EOUT` (R125): packets as ENC builds them, in whole containers -/

theorem Status.code_le_two (st : Status) : st.code.toNat ≤ 2 := by cases st <;> decide

/-- The constant bits of the header (R70). -/
theorem packHeader_flags (chid : ChannelId) (cc : Count4) : (byteAt (packHeader chid cc) 1).extractLsb' 5 3 = 0b010 :=
  BitVec.extractLsb'_append_eq_left

theorem packHeader_control (chid : ChannelId) (cc : Count4) : (byteAt (packHeader chid cc) 3).extractLsb' 4 4 = 0b0001 :=
  BitVec.extractLsb'_append_eq_left

theorem packetLaw_buildPacket {p : Build} (chid : ChannelId) (cc : Count4) (st : Status) {c : Bytes}
    (hp : p.wf = true) (h1 : 1 ≤ c.length) (hc : c.length ≤ p.chunkSize) :
    PacketLaw p (buildPacket p chid cc st c) := by
  obtain ⟨hsize, -, hstatus, hreserved, hlen, -, hstuff⟩ :=
    packetLayoutFollowsItsRule p chid cc st c _ hp h1 hc rfl
  have hlen : readLen (buildPacket p chid cc st c) = c.length := hlen
  exact
    { size := hsize
      sync := rfl
      flags := packHeader_flags chid cc
      control := packHeader_control chid cc
      status := hstatus ▸ st.code_le_two
      reserved := hreserved
      lenPositive := hlen ▸ h1
      lenFits := hlen ▸ hc
      stuffing := hlen ▸ hstuff }

/-- `EoutFramed`, as the statement about ENC alone that it is. -/
def EncFramed (p : Build) (e : Enc) : Prop :=
  (∀ P ∈ e.gbuf, PacketLaw p P) ∧ ∃ cs : List Bytes, (∀ c ∈ cs, ContainerLaw p c) ∧ e.eout = cs.flatMap closedRecords

theorem eoutFramed_iff (p : Build) (s : State) : EoutFramed p s ↔ EncFramed p s.enc := Iff.rfl

section EncFramed

variable {p : Build} {chid : ChannelId} {last : Bool} {e : Enc}

/-- Dropping the packets of `GBUF` leaves `EOUT` framed. -/
theorem EncFramed.of_gbuf_nil {e' : Enc} (h : EncFramed p e) (hg : e'.gbuf = []) (ho : e'.eout = e.eout) :
    EncFramed p e' :=
  ⟨by simp [hg], by rw [ho]; exact h.2⟩

theorem EncFramed.flushContainer (h : EncFramed p e) (h1 : 1 ≤ e.gbuf.length) (hm : e.gbuf.length ≤ p.maxPkts) :
    EncFramed p (flushContainer e) := by
  obtain ⟨hg, cs, hcs, ho⟩ := h
  have hnew : ContainerLaw p e.gbuf.flatten := ⟨e.gbuf, h1, hm, hg, rfl⟩
  exact ⟨nofun, cs ++ [e.gbuf.flatten], by simpa [or_imp, forall_and] using ⟨hcs, hnew⟩, by simp [ho]⟩

theorem EncFramed.pushPacket (hp : p.wf = true) (h : EncFramed p e) (h1 : 1 ≤ e.cbuf.length)
    (hc : e.cbuf.length ≤ p.chunkSize) : EncFramed p (pushPacket p chid last e) :=
  ⟨by simpa [or_imp, forall_and] using ⟨h.1, packetLaw_buildPacket _ _ _ hp h1 hc⟩, h.2⟩

theorem EncFramed.emitPacket (hp : p.wf = true) (h : EncFramed p e) (h1 : 1 ≤ e.cbuf.length)
    (hc : e.cbuf.length ≤ p.chunkSize) : EncFramed p (emitPacket p chid last e) := by
  have hpush : EncFramed p (Machine.pushPacket p chid last e) := h.pushPacket hp h1 hc
  obtain ⟨hfull, he⟩ | ⟨_, he⟩ := emitPacket_cases p chid last e <;> rw [he]
  · exact hpush.flushContainer (by simp) hfull.le
  · exact hpush

theorem EncFramed.putInput {b : Byte} (hp : p.wf = true) (h : EncFramed p e) : EncFramed p (putInput p chid b e) := by
  have hpos := p.chunkSize_pos hp
  obtain ⟨hfull, he⟩ | ⟨_, he⟩ := putInput_cases p chid b e <;> rw [he]
  · exact h.emitPacket (last := false) hp (by omega) hfull.le
  · exact h

/-- The container of `ENC.END` holds what waits in `GBUF`, fewer than `MAX_PKTS` packets, and at most one packet more. -/
theorem EncFramed.finishEncode {v : Bool} (hp : p.wf = true) (hi : EncInv p v e) (h : EncFramed p e) :
    EncFramed p (finishEncode p chid e) := by
  have hroom := hi.gbufFits
  have hpos := p.maxPkts_pos hp
  obtain ⟨_, _, he⟩ | ⟨_, hg, he⟩ | ⟨hc, he⟩ := finishEncode_cases p chid e <;> rw [he]
  · exact h
  · exact h.flushContainer (List.length_pos_iff.2 hg) (by omega)
  · refine (h.pushPacket (chid := chid) (last := true) hp (List.length_pos_iff.2 hc) hi.cbufFits).flushContainer ?_ ?_
    · simp
    · simp only [pushPacket_gbuf, List.length_append, List.length_singleton]
      omega

end EncFramed

theorem Effect.keeps_encFramed {i : Instr} {s t : State} (he : Effect s i t)
    (hi : EncInv Config.build s.cfg.chidV s.enc) (h : EncFramed Config.build s.enc) : EncFramed Config.build t.enc := by
  cases he with
  | encStarted => exact h.of_gbuf_nil rfl rfl
  | encPut => exact h.putInput Config.build_wf
  | encEnded => exact h.finishEncode Config.build_wf hi
  | violation | chidRefused | chidLoaded | startWithoutChid | decStarted | decPut | decEoc | decEnded => exact h

/-- Settles O28: a step changes ENC by a reset or by a command, and only whole containers of R125 reach `EOUT`. -/
theorem eoutStaysWellFramed : Obligations.EoutStaysWellFramed := by
  refine ⟨⟨nofun, [], nofun, rfl⟩, fun s t hinv hf h => ?_⟩
  rw [eoutFramed_iff] at hf ⊢
  obtain ⟨henc, -, -⟩ := (inv_iff ..).1 hinv
  obtain ⟨_, he, _⟩ | ⟨_, _, rfl⟩ | ⟨_, _, _, he⟩ := step_changes h
  · rwa [he]
  · exact hf.of_gbuf_nil rfl rfl
  · exact he.keeps_encFramed henc hf

/-! ## Pieces of a sequence, for the slicer (R111) and the grouper (R124) -/

section Pieces

variable {α : Type} {k : Nat}

theorem ceilDiv_eq_zero_iff {n : Nat} (hk : 0 < k) : ceilDiv n k = 0 ↔ n = 0 := by
  rcases Nat.eq_zero_or_pos n with rfl | hn
  · simp [ceilDiv_zero hk]
  · rw [ceilDiv_pos hk hn]
    exact iff_of_false (Nat.succ_ne_zero _) hn.ne'

/-- What is left from the start of a piece that is not the last is enough for the whole piece. -/
theorem le_sub_of_succ_lt_ceilDiv {n j : Nat} (hk : 0 < k) (hj : j + 1 < ceilDiv n k) : k ≤ n - j * k := by
  have := mul_lt_of_lt_ceilDiv hk hj
  rw [Nat.add_mul] at this
  omega

/-- What is left from the start of the last piece: something, and no more than one piece. -/
theorem sub_of_succ_eq_ceilDiv {n j : Nat} (hk : 0 < k) (hj : j + 1 = ceilDiv n k) :
    1 ≤ n - j * k ∧ n - j * k ≤ k := by
  have hstart := mul_lt_of_lt_ceilDiv hk (show j < ceilDiv n k by omega)
  have hend := le_mul_of_succ_eq_ceilDiv hk hj
  rw [Nat.add_mul] at hend
  omega

theorem pieces_flatten {l : List α} (hk : 0 < k) : (pieces l k).flatten = l := by
  induction h : l.length using Nat.strong_induction_on generalizing l with
  | _ n ih =>
    rcases eq_or_ne l [] with rfl | hl
    · simp [pieces_nil hk]
    · have := List.length_pos_iff.2 hl
      rw [pieces_of_ne_nil hk hl, List.flatten_cons, ih _ (by simp; omega) rfl, List.take_append_drop]

/-- A sequence already cut into whole pieces is cut there. -/
theorem pieces_flatten_append {gs : List (List α)} (rest : List α) (hk : 0 < k) (hgs : ∀ g ∈ gs, g.length = k) :
    pieces (gs.flatten ++ rest) k = gs ++ pieces rest k := by
  induction gs with
  | nil => simp
  | cons g gs ih =>
    obtain ⟨rfl, hgs⟩ := List.forall_mem_cons.1 hgs
    have hne : (g :: gs).flatten ++ rest ≠ [] := by simp [List.length_pos_iff.1 hk]
    rw [pieces_of_ne_nil hk hne, List.flatten_cons, List.append_assoc, List.take_left, List.drop_left, ih hgs,
      List.cons_append]

theorem pieces_of_length_le {l : List α} (hk : 0 < k) (hl : l ≠ []) (h : l.length ≤ k) : pieces l k = [l] := by
  rw [pieces_of_ne_nil hk hl, List.take_of_length_le h, List.drop_of_length_le h, pieces_nil hk]

end Pieces

/-! ## The slicer (R111) -/

theorem chunkAt_length (p : Build) (input : Bytes) (i : Nat) :
    (chunkAt p input i).length = min p.chunkSize (input.length - i * p.chunkSize) := by
  simp [chunkAt_eq]

/-- Settles O42: the chunks are the pieces of the input. -/
theorem slicerFollowsItsRule : Obligations.SlicerFollowsItsRule := by
  intro p input hp
  have hpos := p.chunkSize_pos hp
  refine ⟨rfl, (ceilDiv_eq_zero_iff hpos).trans List.length_eq_zero_iff, fun i hi => ?_, fun i hi => ?_, ?_⟩
  · rw [chunkAt_length, Nat.min_eq_left (le_sub_of_succ_lt_ceilDiv hpos hi)]
  · obtain ⟨h1, hc⟩ := sub_of_succ_eq_ceilDiv hpos hi
    rw [chunkAt_length, Nat.min_eq_right hc]
    exact ⟨rfl, h1, hc⟩
  · rw [chunks_eq_pieces, pieces_flatten hpos]

/-! ## The grouper (R124) -/

/-- Settles O45: the groups are the pieces of the packet sequence. -/
theorem grouperPartitionsThePackets : Obligations.GrouperPartitionsThePackets := by
  intro p pkts hp
  have hpos := p.maxPkts_pos hp
  rw [groupPackets_eq_pieces, pieces_length]
  refine ⟨pieces_flatten hpos, rfl, fun j g hg => ?_⟩
  obtain ⟨rfl, _⟩ := pieces_getElem? hg
  rw [List.length_take, List.length_drop]
  refine ⟨rfl, fun hj => ?_, fun hj => ?_⟩
  · exact Nat.min_eq_left (le_sub_of_succ_lt_ceilDiv hpos hj)
  · obtain ⟨h1, hm⟩ := sub_of_succ_eq_ceilDiv hpos hj
    rw [Nat.min_eq_right hm]
    exact ⟨rfl, h1, hm⟩

/-! ## Statuses and counters (R112, R126) -/

theorem statuses_of_two_le (m : Nat) :
    (List.range (m + 2)).map (statusAt (m + 2)) = .first :: (List.replicate m .middle ++ [.last]) := by
  have hmiddle : ∀ i ∈ List.range m, statusAt (m + 2) (i + 1) = .middle := by
    intro i hi
    have := List.mem_range.1 hi
    rw [statusAt, if_neg (by omega), if_neg (by omega)]
  have hlast : statusAt (m + 2) (m + 1) = .last := by simp [statusAt]
  rw [List.range_succ_eq_map, List.range_succ, List.map_cons, List.map_map, List.map_append, List.map_singleton]
  congr 2
  · exact (List.map_congr_left hmiddle).trans (by simp)
  · exact congrArg (fun st => [st]) hlast

theorem byteAt_packetAt_status (p : Build) (input : Bytes) (chid : ChannelId) (i : Nat) :
    byteAt (packetAt p input chid i) 4 = (statusAt (chunkCount p input) i).code := rfl

/-- Settles O43: the first and the last chunk have a status of their own, and byte 4 of a packet is the status. -/
theorem statusesFollowTheirRule : Obligations.StatusesFollowTheirRule := by
  refine ⟨rfl, fun n hn => ?_, rfl, rfl, rfl, fun p input chid _ => ?_⟩
  · obtain ⟨m, rfl⟩ := Nat.exists_eq_add_of_le' hn
    exact statuses_of_two_le m
  · rw [packetsOf, List.map_map]
    exact List.map_congr_left fun i _ => byteAt_packetAt_status p input chid i

theorem byteAt_packetAt_counter (p : Build) (input : Bytes) (chid : ChannelId) (i : Nat) :
    (byteAt (packetAt p input chid i) 3).toNat % 16 = i % 16 := by
  have h3 : (byteAt (packetAt p input chid i) 3).toNat = 16 + (BitVec.ofNat 4 i).toNat :=
    (byteAt_packHeader chid (BitVec.ofNat 4 i) []).2.2.2
  rw [h3, BitVec.toNat_ofNat]
  omega

/-- A container of an encode is a run of its packets. -/
theorem encodeInput_getElem? {p : Build} {input c : Bytes} {chid : ChannelId} {j : Nat}
    (h : (encodeInput p input chid)[j]? = some c) :
    c = (((packetsOf p input chid).drop (j * p.maxPkts)).take p.maxPkts).flatten ∧
      j < ceilDiv (chunkCount p input) p.maxPkts := by
  rw [encodeInput, List.getElem?_map, groupPackets_eq_pieces] at h
  obtain ⟨g, hg, rfl⟩ := Option.map_eq_some_iff.1 h
  obtain ⟨rfl, hj⟩ := pieces_getElem? hg
  exact ⟨rfl, by simpa using hj⟩

theorem encodeInput_length (p : Build) (input : Bytes) (chid : ChannelId) :
    (encodeInput p input chid).length = ceilDiv (chunkCount p input) p.maxPkts := by
  rw [encodeInput, List.length_map, groupPackets_eq_pieces, pieces_length, packetsOf_length]

theorem packetsOf_drop {p : Build} {input : Bytes} {chid : ChannelId} {i : Nat} (hi : i < chunkCount p input) :
    (packetsOf p input chid).drop i = packetAt p input chid i :: (packetsOf p input chid).drop (i + 1) := by
  rw [List.drop_eq_getElem_cons (by simpa using hi)]
  simp [packetsOf]

/-- Settles O44: the counter of packet `i` is `i` whatever the grouper does, and a container begins with its first
packet's header. -/
theorem continuityLaw : Obligations.ContinuityLaw := by
  intro p input chid hp
  refine ⟨packetsOf_length .., fun i P hP => ?_, fun j c hc => ?_⟩
  · obtain ⟨rfl, -⟩ := packetsOf_getElem? hP
    exact byteAt_packetAt_counter ..
  · obtain ⟨rfl, hj⟩ := encodeInput_getElem? hc
    obtain ⟨m, hm⟩ := Nat.exists_eq_add_one_of_ne_zero (p.maxPkts_pos hp).ne'
    have hsize := packetAt_length p input chid (j * p.maxPkts) hp
    have := p.chunkSize_add hp
    rw [packetsOf_drop (mul_lt_of_lt_ceilDiv (p.maxPkts_pos hp) hj), hm, List.take_succ_cons, List.flatten_cons,
      byteAt_append_left _ _ _ (by rw [← hm]; omega)]
    exact byteAt_packetAt_counter ..

/-! ## The container cap (R127) -/

theorem mem_packetsOf_length {p : Build} {input P : Bytes} {chid : ChannelId} (hp : p.wf = true)
    (hP : P ∈ packetsOf p input chid) : P.length = p.packetSize := by
  obtain ⟨i, -, rfl⟩ := List.mem_map.1 hP
  exact packetAt_length p input chid i hp

theorem container_length {p : Build} {input c : Bytes} {chid : ChannelId} {j : Nat} (hp : p.wf = true)
    (h : (encodeInput p input chid)[j]? = some c) :
    c.length = min p.maxPkts (chunkCount p input - j * p.maxPkts) * p.packetSize := by
  obtain ⟨rfl, -⟩ := encodeInput_getElem? h
  rw [flatten_length_of_forall fun P hP =>
    mem_packetsOf_length hp (List.mem_of_mem_drop (List.mem_of_mem_take hP))]
  simp

/-- Settles O46: a container holds `MAX_PKTS` packets, or those that are left. -/
theorem containerCapLaw : Obligations.ContainerCapLaw := by
  intro p input chid hp j c hc
  have hpos := p.maxPkts_pos hp
  rw [container_length hp hc, encodeInput_length]
  refine ⟨Nat.mul_le_mul_right _ (Nat.min_le_left ..), p.maxPkts_le_cap, fun hj => ?_, fun hj => ?_⟩
  · rw [Nat.min_eq_left (le_sub_of_succ_lt_ceilDiv hpos hj)]
  · obtain ⟨h1, -⟩ := sub_of_succ_eq_ceilDiv hpos hj
    exact Nat.le_mul_of_pos_left _ (Nat.lt_min.2 ⟨hpos, h1⟩)

/-! ## Runs of commands (R28, R202) -/

/-- `Run s is rs t`: the commands `is`, one after the other from `s`, are answered `rs` and lead to `t`. HOST's side of the
ports stays out of it, since no command reads or writes it. -/
inductive Run : State → List Instr → List RspRecord → State → Prop
  | nil {s : State} : Run s [] [] s
  | cons {s u t : State} {i : Instr} {is : List Instr} {r : RspRecord} {rs : List RspRecord}
      (he : Effect s i u) (hr : u.rsp = s.rsp ++ [r]) (h : Run u is rs t) : Run s (i :: is) (r :: rs) t

section Run

variable {i : Instr} {is js : List Instr} {s t u : State} {r : RspRecord} {rs qs : List RspRecord}

theorem effect_total (i : Instr) (s : State) : ∃ t, Effect s i t := by
  cases i <;> exact ⟨_, effect_of_exec rfl⟩

/-- A command is answered the same whatever `RSP` and HOST's list hold, and does the same to the rest. -/
theorem Effect.answers_beside (he : Effect s i t) :
    ∃ r, t.rsp = s.rsp ++ [r] ∧ ∀ (rsp : List RspRecord) (host : HostPort),
      Effect { s with rsp := rsp, host := host } i { t with rsp := rsp ++ [r], host := host } := by
  cases he with
  | violation hv => exact ⟨_, rfl, fun _ _ => .violation (by cases i <;> exact hv)⟩
  | chidRefused hb hv => exact ⟨_, rfl, fun _ _ => .chidRefused hb hv⟩
  | chidLoaded hb hv => exact ⟨_, rfl, fun _ _ => .chidLoaded hb hv⟩
  | startWithoutChid hb hv => exact ⟨_, rfl, fun _ _ => .startWithoutChid hb hv⟩
  | encStarted hb hv => exact ⟨_, rfl, fun _ _ => .encStarted hb hv⟩
  | encPut hb => exact ⟨_, rfl, fun _ _ => .encPut hb⟩
  | encEnded hb => exact ⟨_, rfl, fun _ _ => .encEnded hb⟩
  | decStarted hb => exact ⟨_, rfl, fun _ _ => .decStarted hb⟩
  | decPut hb => exact ⟨_, rfl, fun _ _ => .decPut hb⟩
  | decEoc hb => exact ⟨_, rfl, fun _ _ => .decEoc hb⟩
  | decEnded hb => exact ⟨_, rfl, fun _ _ => .decEnded hb⟩

theorem Effect.beside_rsp_host (he : Effect s i t) (hr : t.rsp = s.rsp ++ [r]) (rsp : List RspRecord)
    (host : HostPort) :
    Effect { s with rsp := rsp, host := host } i { t with rsp := rsp ++ [r], host := host } := by
  obtain ⟨r', hr', hbeside⟩ := he.answers_beside
  obtain rfl := List.singleton_inj.1 (List.append_cancel_left (hr.symm.trans hr'))
  exact hbeside rsp host

theorem run_total (is : List Instr) (s : State) : ∃ rs t, Run s is rs t := by
  induction is generalizing s with
  | nil => exact ⟨[], s, .nil⟩
  | cons i is ih =>
    obtain ⟨u, he⟩ := effect_total i s
    obtain ⟨r, hr⟩ := he.answers_once
    obtain ⟨rs, t, h⟩ := ih u
    exact ⟨r :: rs, t, .cons he hr h⟩

theorem Run.append (h : Run s is rs u) (h' : Run u js qs t) : Run s (is ++ js) (rs ++ qs) t := by
  induction h with
  | nil => exact h'
  | cons he hr _ ih => exact .cons he hr (ih h')

theorem Run.unique {t' : State} (h : Run s is rs t) (h' : Run s is qs t') : rs = qs ∧ t = t' := by
  induction h generalizing qs t' with
  | nil =>
    cases h'
    exact ⟨rfl, rfl⟩
  | cons he hr _ ih =>
    cases h' with
    | cons he' hr' h' =>
      obtain rfl := he.unique he'
      obtain ⟨rfl, rfl⟩ := ih h'
      obtain rfl := List.singleton_inj.1 (List.append_cancel_left (hr.symm.trans hr'))
      exact ⟨rfl, rfl⟩

theorem Run.rsp (h : Run s is rs t) : t.rsp = s.rsp ++ rs := by
  induction h with
  | nil => simp
  | cons _ hr _ ih => rw [ih, hr, List.append_assoc, List.singleton_append]

theorem Run.length_eq (h : Run s is rs t) : rs.length = is.length := by
  induction h with
  | nil => rfl
  | cons _ _ _ ih => rw [List.length_cons, List.length_cons, ih]

/-- The machine, when HOST presents the commands of a run, takes exactly that run. -/
theorem Run.runSteps (h : Run s is rs t) (host : HostPort) :
    runSteps is.length (State.presenting { s with host := host } is) =
      .next { t with host := { host with cmdIndex := host.cmdIndex + is.length } } := by
  induction h generalizing host with
  | nil => rfl
  | @cons s u t i is r rs he hr _ ih =>
    have hstep : step (State.presenting { s with host := host } (i :: is)) =
        .next (State.presenting { u with host := { host with cmdIndex := host.cmdIndex + 1 } } is) := by
      refine (step_of_command rfl (decode_encode i)).trans (exec_of_effect ?_)
      have he' := he.beside_rsp_host hr s.rsp
        { host with pending := presentCommands is ++ host.pending, cmdIndex := host.cmdIndex + 1 }
      rw [← hr] at he'
      exact he'
    rw [List.length_cons, runSteps_succ hstep, ih]
    simp only [Nat.add_assoc, Nat.add_comm 1]

/-- R129's interleaving: taking the commands of DEC out of a run changes nothing for the configuration, for ENC and for the
responses to the other commands (R34). -/
theorem Run.without_dec (h : Run s is rs t) (dec : Dec) (rsp : List RspRecord) :
    Run { s with dec := dec, rsp := rsp } (is.filter (fun i => !isDecCommand i))
      (responsesTo (fun i => !isDecCommand i) is rs)
      { t with dec := dec, rsp := rsp ++ responsesTo (fun i => !isDecCommand i) is rs } := by
  induction h generalizing rsp with
  | nil =>
    simpa [responsesTo] using Run.nil
  | @cons s u t i is r rs he hr _ ih =>
    cases hi : isDecCommand i with
    | true =>
      obtain ⟨hcfg, henc⟩ := he.cfg_enc_of_dec hi
      have hu : ({ u with dec := dec, rsp := rsp } : State) = { s with dec := dec, rsp := rsp } := by
        rw [hcfg, henc, he.host_eq]
      simpa [responsesTo, hi, hu] using ih rsp
    | false =>
      have he' : Effect { s with dec := dec, rsp := rsp } i { u with dec := dec, rsp := rsp ++ [r] } := by
        rw [he.host_eq]
        exact (he.beside_dec hi dec).beside_rsp_host hr rsp s.host
      simpa [responsesTo, hi] using Run.cons he' rfl (ih (rsp ++ [r]))

end Run

/-! ## The runs of one encode (R129) -/

section EncodeRuns

variable {s : State}

/-- The state changes of a run of `ENC.PUT`s. -/
def putInputs (p : Build) (chid : ChannelId) (input : Bytes) (e : Enc) : Enc :=
  input.foldl (fun e b => putInput p chid b e) e

theorem putInputs_ebusy (p : Build) (chid : ChannelId) (input : Bytes) (e : Enc) :
    (putInputs p chid input e).ebusy = e.ebusy := by
  induction input generalizing e with
  | nil => rfl
  | cons b input ih => exact (ih _).trans (putInput_ebusy ..)

theorem extractLsb'_setWidth (chid : ChannelId) : (chid.setWidth 16).extractLsb' 0 13 = chid := by
  have := chid.isLt
  apply BitVec.eq_of_toNat_eq
  rw [toNat_extractLsb'_eq, BitVec.toNat_setWidth]
  omega

theorem run_cfgChid (hb : s.enc.ebusy = false) (chid : ChannelId) :
    Run s [.cfgChid (chid.setWidth 16)] [0x00]
      { s with cfg := { chid := chid, chidV := true }, rsp := s.rsp ++ [0x00] } := by
  have hv : (chid.setWidth 16).toNat ≤ 8191 := by
    have := chid.isLt
    rw [BitVec.toNat_setWidth]
    omega
  have he : Effect s _ _ := .chidLoaded hb hv
  rw [extractLsb'_setWidth] at he
  exact .cons he rfl .nil

theorem run_encStart (hb : s.enc.ebusy = false) (hv : s.cfg.chidV = true) :
    Run s [.encStart] [0x00] { s with enc := beginEncode s.enc, rsp := s.rsp ++ [0x00] } :=
  .cons (.encStarted hb hv) rfl .nil

theorem run_encPuts (hb : s.enc.ebusy = true) (input : Bytes) :
    Run s (input.map .encPut) (List.replicate input.length 0x00)
      { s with
        enc := putInputs Config.build s.cfg.chid input s.enc
        rsp := s.rsp ++ List.replicate input.length 0x00 } := by
  induction input generalizing s with
  | nil => simpa [putInputs] using Run.nil
  | cons b input ih =>
    have hrest := ih (s := respond .ok false (s.onEnc (putInput Config.build s.cfg.chid b))) (by simpa using hb)
    have hok : rspRecord .ok false = 0x00 := rfl
    simpa [putInputs, List.replicate_succ, hok] using Run.cons (.encPut hb) rfl hrest

theorem run_encEnd (hb : s.enc.ebusy = true) :
    Run s [.encEnd] [0x00]
      { s with enc := finishEncode Config.build s.cfg.chid s.enc, rsp := s.rsp ++ [0x00] } :=
  .cons (.encEnded hb) rfl .nil

/-- The commands of an encode up to its last byte. -/
theorem run_encodeBytes (hb : s.enc.ebusy = false) (chid : ChannelId) (input : Bytes) :
    Run s ([.cfgChid (chid.setWidth 16), .encStart] ++ input.map .encPut) (List.replicate (input.length + 2) 0x00)
      { s with
        cfg := { chid := chid, chidV := true }
        enc := putInputs Config.build chid input (beginEncode s.enc)
        rsp := s.rsp ++ List.replicate (input.length + 2) 0x00 } := by
  have h := ((run_cfgChid hb chid).append (run_encStart hb rfl)).append (run_encPuts rfl input)
  simpa [List.replicate_succ] using h

/-- All the commands of an encode. -/
theorem run_encodeCommands (hb : s.enc.ebusy = false) (chid : ChannelId) (input : Bytes) :
    Run s (encodeCommands chid input) (List.replicate (input.length + 3) 0x00)
      { s with
        cfg := { chid := chid, chidV := true }
        enc := finishEncode Config.build chid (putInputs Config.build chid input (beginEncode s.enc))
        rsp := s.rsp ++ List.replicate (input.length + 3) 0x00 } := by
  have h := (run_encodeBytes hb chid input).append (run_encEnd (putInputs_ebusy ..))
  simpa [encodeCommands, List.replicate_succ'] using h

end EncodeRuns

theorem encodeInput_nil {p : Build} (chid : ChannelId) (hp : p.wf = true) : encodeInput p [] chid = [] := by
  rw [← List.length_eq_zero_iff, encodeInput_length, chunkCount, List.length_nil, ceilDiv_zero (p.chunkSize_pos hp),
    ceilDiv_zero (p.maxPkts_pos hp)]

/-- Settles O47: no byte, no chunk, no packet, no container. -/
theorem emptyInputGivesNoContainer : Obligations.EmptyInputGivesNoContainer := by
  refine ⟨fun p chid hp => encodeInput_nil chid hp, fun s hb hv => ?_⟩
  have h := (run_encStart hb hv).append (run_encEnd rfl)
  exact ⟨_, h.runSteps s.host, rfl, by simp, rfl⟩

/-! ## The loop invariant of one encode (R129) -/

/-- The packets built from full chunks, none of which was the last of its input (R112, R114, R123). -/
def builtPackets (p : Build) (chid : ChannelId) (cs : List Bytes) : List Bytes :=
  cs.mapIdx fun i c => buildPacket p chid (BitVec.ofNat 4 i) (chooseStatus (decide (i = 0)) false) c

/-- The slicer midway (R111, R123): `input` is the full chunks `cs` and the bytes `rest` collected since, and a full chunk is
given away only when a byte follows it. -/
structure Sliced (p : Build) (input : Bytes) (cs : List Bytes) (rest : Bytes) : Prop where
  full : ∀ c ∈ cs, c.length = p.chunkSize
  restFits : rest.length ≤ p.chunkSize
  restFollows : rest = [] → cs = []
  split : input = cs.flatten ++ rest

/-- Packet builder and grouper midway (R114, R124): ENC has built the packets of the full chunks `cs`, has emitted the groups
`gs` of them on `EOUT` after the records `out`, and holds the rest in `GBUF`. -/
structure Emitted (p : Build) (chid : ChannelId) (out : List OutRecord) (cs : List Bytes) (gs : List (List Bytes))
    (e : Enc) : Prop where
  busy : e.ebusy = true
  first : e.efirst = decide (cs.length = 0)
  count : e.cc = BitVec.ofNat 4 cs.length
  full : ∀ g ∈ gs, g.length = p.maxPkts
  gbufFits : e.gbuf.length < p.maxPkts
  split : builtPackets p chid cs = gs.flatten ++ e.gbuf
  eout : e.eout = out ++ (gs.map List.flatten).flatMap closedRecords

/-- The loop invariant: ENC has taken `input` since the encode began with `out` on `EOUT`. -/
def Encoding (p : Build) (chid : ChannelId) (out : List OutRecord) (input : Bytes) (e : Enc) : Prop :=
  ∃ cs gs, Sliced p input cs e.cbuf ∧ Emitted p chid out cs gs e

section Invariant

variable {p : Build} {chid : ChannelId} {out : List OutRecord} {input rest : Bytes} {cs : List Bytes}
  {gs : List (List Bytes)} {e : Enc} {b : Byte}

theorem Sliced.append (h : Sliced p input cs rest) (hne : rest.length ≠ p.chunkSize) :
    Sliced p (input ++ [b]) cs (rest ++ [b]) where
  full := h.full
  restFits := by simpa using Nat.lt_of_le_of_ne h.restFits hne
  restFollows := by simp
  split := by rw [h.split, List.append_assoc]

theorem Sliced.append_of_full (hp : p.wf = true) (h : Sliced p input cs rest) (hfull : rest.length = p.chunkSize) :
    Sliced p (input ++ [b]) (cs ++ [rest]) [b] where
  full := List.forall_mem_append.2 ⟨h.full, List.forall_mem_singleton.2 hfull⟩
  restFits := p.chunkSize_pos hp
  restFollows := nofun
  split := by simp [h.split]

theorem builtPackets_append (c : Bytes) :
    builtPackets p chid (cs ++ [c]) = builtPackets p chid cs ++
      [buildPacket p chid (BitVec.ofNat 4 cs.length) (chooseStatus (decide (cs.length = 0)) false) c] := by
  simp [builtPackets, List.mapIdx_append]

theorem nextCount_ofNat (n : Nat) : nextCount (BitVec.ofNat 4 n) = BitVec.ofNat 4 (n + 1) := by
  simp [nextCount, BitVec.ofNat_add]

/-- The packet ENC adds to those of the chunks before it. -/
theorem Emitted.pushPacket_gbuf (h : Emitted p chid out cs gs e) (last : Bool) :
    gs.flatten ++ (pushPacket p chid last e).gbuf = builtPackets p chid cs ++
      [buildPacket p chid (BitVec.ofNat 4 cs.length) (chooseStatus (decide (cs.length = 0)) last) e.cbuf] := by
  rw [Machine.pushPacket_gbuf, ← List.append_assoc, ← h.split, h.count, h.first]

/-- Each packet either waits in `GBUF` or completes a group there, which leaves at once. -/
theorem Emitted.emitPacket (hp : p.wf = true) (h : Emitted p chid out cs gs e) :
    ∃ gs', Emitted p chid out (cs ++ [e.cbuf]) gs' (emitPacket p chid false e) := by
  have hgbuf := h.pushPacket_gbuf false
  rw [← builtPackets_append] at hgbuf
  have hfirst : false = decide ((cs ++ [e.cbuf]).length = 0) := by simp
  have hcount : nextCount e.cc = BitVec.ofNat 4 (cs ++ [e.cbuf]).length := by
    rw [h.count, nextCount_ofNat, List.length_append, List.length_singleton]
  obtain ⟨hfull, he⟩ | ⟨hne, he⟩ := emitPacket_cases p chid false e <;> rw [he]
  · refine ⟨gs ++ [(Machine.pushPacket p chid false e).gbuf], h.busy, hfirst, hcount, ?_, p.maxPkts_pos hp, ?_, ?_⟩
    · exact List.forall_mem_append.2 ⟨h.full, List.forall_mem_singleton.2 hfull⟩
    · simpa using hgbuf.symm
    · simp [h.eout]
  · refine ⟨gs, h.busy, hfirst, hcount, h.full, ?_, hgbuf.symm, h.eout⟩
    have := h.gbufFits
    simp only [Machine.pushPacket_gbuf, List.length_append, List.length_singleton] at hne ⊢
    omega

theorem encoding_beginEncode (hp : p.wf = true) : Encoding p chid e.eout [] (beginEncode e) :=
  ⟨[], [],
    { full := nofun, restFits := Nat.zero_le _, restFollows := fun _ => rfl, split := rfl },
    { busy := rfl, first := rfl, count := rfl, full := nofun, gbufFits := p.maxPkts_pos hp, split := rfl,
      eout := by simp }⟩

theorem Encoding.putInput (hp : p.wf = true) (h : Encoding p chid out input e) (b : Byte) :
    Encoding p chid out (input ++ [b]) (putInput p chid b e) := by
  obtain ⟨cs, gs, hs, he⟩ := h
  obtain ⟨hfull, hput⟩ | ⟨hne, hput⟩ := putInput_cases p chid b e <;> rw [hput]
  · obtain ⟨gs', he'⟩ := he.emitPacket hp
    exact ⟨cs ++ [e.cbuf], gs', by simpa using hs.append_of_full hp hfull, { he' with }⟩
  · exact ⟨cs, gs, hs.append hne, { he with }⟩

theorem Encoding.putInputs (hp : p.wf = true) (h : Encoding p chid out input e) (more : Bytes) :
    Encoding p chid out (input ++ more) (putInputs p chid more e) := by
  induction more generalizing input e with
  | nil => simpa [Machine.putInputs] using h
  | cons b more ih => simpa [Machine.putInputs] using ih (h.putInput hp b)

end Invariant

/-! ## The end of an encode (R122, R128) -/

section Finish

variable {p : Build} {chid : ChannelId} {out : List OutRecord} {input rest : Bytes} {cs : List Bytes}
  {gs : List (List Bytes)} {e : Enc}

theorem mapIdx_map_range {α β : Type} (f : Nat → α → β) (g : Nat → α) (n : Nat) :
    ((List.range n).map g).mapIdx f = (List.range n).map fun i => f i (g i) := by
  apply List.ext_getElem <;> simp

theorem packetsOf_eq_mapIdx (p : Build) (input : Bytes) (chid : ChannelId) :
    packetsOf p input chid = (pieces input p.chunkSize).mapIdx fun i c =>
      buildPacket p chid (BitVec.ofNat 4 i) (statusAt (chunkCount p input) i) c := by
  rw [← chunks_eq_pieces, mapIdx_map_range]
  rfl

theorem statusAt_eq_chooseStatus (n i : Nat) : statusAt n i = chooseStatus (decide (i = 0)) (decide (i = n - 1)) := by
  simp [statusAt, chooseStatus]

theorem Sliced.pieces_eq (hp : p.wf = true) (h : Sliced p input cs rest) (hne : rest ≠ []) :
    pieces input p.chunkSize = cs ++ [rest] := by
  rw [h.split, pieces_flatten_append rest (p.chunkSize_pos hp) h.full,
    pieces_of_length_le (p.chunkSize_pos hp) hne h.restFits]

theorem Sliced.chunkCount_eq (hp : p.wf = true) (h : Sliced p input cs rest) (hne : rest ≠ []) :
    chunkCount p input = cs.length + 1 := by
  rw [chunkCount, ← pieces_length, h.pieces_eq hp hne, List.length_append, List.length_singleton]

/-- The packets of an encode: those of the full chunks a byte followed, and the last. -/
theorem Sliced.packetsOf_eq (hp : p.wf = true) (h : Sliced p input cs rest) (hne : rest ≠ []) :
    packetsOf p input chid = builtPackets p chid cs ++
      [buildPacket p chid (BitVec.ofNat 4 cs.length) (chooseStatus (decide (cs.length = 0)) true) rest] := by
  rw [packetsOf_eq_mapIdx, h.chunkCount_eq hp hne, h.pieces_eq hp hne, List.mapIdx_append, builtPackets]
  congr 1
  · rw [List.mapIdx_eq_mapIdx_iff]
    intro i hi
    rw [statusAt_eq_chooseStatus, show decide (i = cs.length + 1 - 1) = false by simp; omega]
  · simp [statusAt_eq_chooseStatus]

theorem Emitted.of_no_chunk (hp : p.wf = true) (h : Emitted p chid out [] gs e) : gs = [] ∧ e.gbuf = [] := by
  obtain ⟨hgs, hgbuf⟩ := List.append_eq_nil_iff.1 h.split.symm
  refine ⟨List.eq_nil_iff_forall_not_mem.2 fun g hg => ?_, hgbuf⟩
  have := h.full g hg
  rw [List.flatten_eq_nil_iff.1 hgs g hg, List.length_nil] at this
  exact (p.maxPkts_pos hp).ne this

/-- The containers of an encode: those of the full groups, and one of what `GBUF` and `CBUF` hold at the end. -/
theorem Emitted.encodeInput_eq (hp : p.wf = true) (hs : Sliced p input cs e.cbuf) (he : Emitted p chid out cs gs e)
    (hne : e.cbuf ≠ []) :
    encodeInput p input chid = gs.map List.flatten ++ [(pushPacket p chid true e).gbuf.flatten] := by
  have hlast : (pushPacket p chid true e).gbuf.length ≤ p.maxPkts := by
    have := he.gbufFits
    simpa using this
  rw [encodeInput, groupPackets_eq_pieces, hs.packetsOf_eq hp hne, ← he.pushPacket_gbuf true,
    pieces_flatten_append _ (p.maxPkts_pos hp) he.full, pieces_of_length_le (p.maxPkts_pos hp) (by simp) hlast,
    List.map_append, List.map_singleton]

theorem Encoding.finishEncode (hp : p.wf = true) (h : Encoding p chid out input e) :
    (finishEncode p chid e).eout = out ++ (encodeInput p input chid).flatMap closedRecords ∧
    ((finishEncode p chid e).efirst = true ↔ input = []) ∧
    (finishEncode p chid e).cc = BitVec.ofNat 4 (chunkCount p input) := by
  obtain ⟨cs, gs, hs, he⟩ := h
  by_cases hc : e.cbuf = []
  · obtain rfl := hs.restFollows hc
    obtain ⟨rfl, hg⟩ := he.of_no_chunk hp
    obtain rfl : input = [] := by rw [hs.split, hc]; rfl
    have hcount : chunkCount p [] = 0 := ceilDiv_zero (p.chunkSize_pos hp)
    rw [finishEncode_of_empty chid hc hg, encodeInput_nil chid hp, hcount]
    exact ⟨he.eout, iff_of_true he.first rfl, he.count⟩
  · have hinput : input ≠ [] := by
      rw [hs.split]
      exact List.append_ne_nil_of_right_ne_nil _ hc
    rw [finishEncode_of_cbuf chid hc, he.encodeInput_eq hp hs hc, hs.chunkCount_eq hp hc, ← nextCount_ofNat, ← he.count]
    exact ⟨by simp [he.eout], iff_of_false nofun hinput, rfl⟩

end Finish

/-- Settles O48: the commands of DEC drop out of the run, and the loop invariant holds up to `ENC.END`. -/
theorem encodeCommandsComputeEncode : Obligations.EncodeCommandsComputeEncode := by
  intro s chid input is hb his
  obtain ⟨rs, t, hrun⟩ := run_total is s
  have henc := hrun.without_dec s.dec s.rsp
  rw [his] at henc
  obtain ⟨hrs, ht⟩ := henc.unique (run_encodeCommands hb chid input)
  have hcfg : t.cfg = { chid := chid, chidV := true } := congrArg State.cfg ht
  have htenc : t.enc = finishEncode Config.build chid (putInputs Config.build chid input (beginEncode s.enc)) :=
    congrArg State.enc ht
  obtain ⟨heout, hefirst, hcc⟩ :=
    ((encoding_beginEncode (e := s.enc) (chid := chid) Config.build_wf).putInputs Config.build_wf input).finishEncode
      Config.build_wf
  rw [List.nil_append, ← htenc] at heout hefirst hcc
  exact ⟨_, rs, hrun.runSteps s.host, hrun.rsp, hrun.length_eq, hrs, heout,
    (congrArg Enc.ebusy htenc).trans (finishEncode_ebusy ..), (congrArg Enc.cbuf htenc).trans (finishEncode_cbuf ..),
    (congrArg Enc.gbuf htenc).trans (finishEncode_gbuf ..), hcfg, hefirst, hcc⟩

/-! ## The encode midway (R30, R123, R200) -/

section Midway

variable {p : Build} {chid : ChannelId} {out : List OutRecord} {input rest : Bytes} {cs : List Bytes}
  {gs : List (List Bytes)} {e : Enc}

/-- The whole pieces of a sequence, each read off where it stands. -/
theorem eq_map_range_of_whole_pieces {α : Type} {k : Nat} {gs : List (List α)} {rest l : List α} (hk : 0 < k)
    (hgs : ∀ g ∈ gs, g.length = k) (hl : l = gs.flatten ++ rest) :
    gs = (List.range gs.length).map fun j => (l.drop (j * k)).take k := by
  refine List.ext_getElem (by simp) fun j hj _ => ?_
  have hpiece : (pieces l k)[j]? = some gs[j] := by
    rw [hl, pieces_flatten_append rest hk hgs, List.getElem?_append_left hj, List.getElem?_eq_getElem hj]
  rw [List.getElem_map, List.getElem_range]
  exact (pieces_getElem? hpiece).1

/-- How many packets have been built: one for each full chunk a byte followed (R129). -/
theorem Sliced.length_eq (hp : p.wf = true) (h : Sliced p input cs rest) (hne : input ≠ []) :
    cs.length = (input.length - 1) / p.chunkSize := by
  have hrest : rest ≠ [] := fun hr => hne (by rw [h.split, h.restFollows hr, hr]; rfl)
  have hpos : 0 < input.length := List.length_pos_iff.2 hne
  have := ceilDiv_pos (p.chunkSize_pos hp) hpos
  have := h.chunkCount_eq hp hrest
  rw [chunkCount] at this
  omega

theorem Sliced.drop_eq (h : Sliced p input cs rest) : rest = input.drop (cs.length * p.chunkSize) := by
  rw [h.split, List.drop_left' (flatten_length_of_forall h.full)]

theorem Sliced.builtPackets_eq (hp : p.wf = true) (h : Sliced p input cs rest) :
    builtPackets p chid cs = (List.range cs.length).map fun i =>
      buildPacket p chid (BitVec.ofNat 4 i) (if i = 0 then .first else .middle)
        ((input.drop (i * p.chunkSize)).take p.chunkSize) := by
  have hcs := eq_map_range_of_whole_pieces (p.chunkSize_pos hp) h.full h.split
  rw [builtPackets, hcs, mapIdx_map_range, ← hcs]
  simp [chooseStatus]

theorem builtPackets_length (cs : List Bytes) : (builtPackets p chid cs).length = cs.length := by
  simp [builtPackets]

theorem Emitted.length_eq (h : Emitted p chid out cs gs e) : gs.length = cs.length / p.maxPkts := by
  have hlen := congrArg List.length h.split
  rw [builtPackets_length, List.length_append, flatten_length_of_forall h.full] at hlen
  have := h.gbufFits
  rw [hlen, Nat.mul_comm, Nat.mul_add_div (by omega), Nat.div_eq_of_lt this, Nat.add_zero]

theorem Emitted.gbuf_eq (h : Emitted p chid out cs gs e) :
    e.gbuf = (builtPackets p chid cs).drop (gs.length * p.maxPkts) := by
  rw [h.split, List.drop_left' (flatten_length_of_forall h.full)]

theorem Emitted.eout_eq (hp : p.wf = true) (h : Emitted p chid out cs gs e) :
    e.eout = out ++ (List.range gs.length).flatMap fun j =>
      closedRecords (((builtPackets p chid cs).drop (j * p.maxPkts)).take p.maxPkts).flatten := by
  have hgs := eq_map_range_of_whole_pieces (p.maxPkts_pos hp) h.full h.split
  rw [h.eout]
  conv_lhs => rw [hgs]
  rw [List.flatMap_map, List.flatMap_map]

end Midway

/-- Settles O49: the loop invariant, with its chunks and groups read off the input and the packets. -/
theorem outputLagsInput : Obligations.OutputLagsInput := by
  rintro s chid input m M pkts hb hne hm rfl hpkts
  have hp := Config.build_wf
  rw [← Config.build_maxPkts]
  obtain ⟨cs, gs, hs, he⟩ := (encoding_beginEncode (e := s.enc) (chid := chid) hp).putInputs hp input
  rw [List.nil_append] at hs
  obtain rfl : cs.length = m := (hs.length_eq hp hne).trans hm.symm
  obtain rfl : builtPackets Config.build chid cs = pkts := by
    rw [hs.builtPackets_eq hp, hpkts]
    simp only [Config.build_chunkSize, Nat.mul_comm 180]
  have hcbuf : (putInputs Config.build chid input (beginEncode s.enc)).cbuf = input.drop (180 * cs.length) := by
    rw [Nat.mul_comm]
    exact hs.drop_eq
  have hrun := (run_encodeBytes hb chid input).runSteps s.host
  rw [show (_ ++ input.map Instr.encPut).length = input.length + 2 by simp] at hrun
  rw [← he.length_eq]
  refine ⟨_, hrun, hcbuf, he.count, he.gbuf_eq, he.eout_eq hp, fun hshort => ?_⟩
  have hgs : gs = [] := by
    rw [← List.length_eq_zero_iff, he.length_eq, hm]
    have := Config.build.maxPkts_pos hp
    exact Nat.div_eq_of_lt (by omega)
  rw [he.eout, hgs]
  simp

end Sys2Proof.Machine

/-! PROOF. The statements of the decoder (42_decoder.md). First its commands one by one (R141 to R144), then what the fold
does not look at (R158) and what the continuity warning does not touch (R151). Then the function level: the warning (R165),
containers cut into packets (R160, R166), and the fold of the packets of an encode (R155, R162). Last, the command level: the
bytes of a group packet by packet (R150), and the runs of one group (R161). -/

namespace Sys2Proof.Machine

/-! ## The commands (R141 to R144) -/

/-- The answer to a command of a group that leaves DEC in this state (R159). -/
def groupRecord (d : Dec) : RspRecord := rspRecord (groupCode d.dfail) d.dccw

section Commands

variable {s : State} {d : Dec}

theorem groupRecord_of_failed (hf : d.dfail = true) : groupRecord d = if d.dccw then 0x06 else 0x02 := by
  rw [groupRecord, hf]
  cases d.dccw <;> rfl

theorem groupRecord_of_good (hf : d.dfail = false) : groupRecord d = if d.dccw then 0x04 else 0x00 := by
  rw [groupRecord, hf]
  cases d.dccw <;> rfl

theorem groupRecord_code (d : Dec) : (groupRecord d).extractLsb' 0 2 = (groupCode d.dfail).bits :=
  rspRecord_code ..

theorem exec_decPut_of_busy {b : Byte} (hb : s.dec.dbusy = true) (hd : takeContainerByte Config.build b s.dec = d) :
    exec (.decPut b) s = .next { s with dec := d, rsp := s.rsp ++ [groupRecord d] } :=
  hd ▸ exec_of_effect (.decPut hb)

theorem exec_decEoc_of_busy (hb : s.dec.dbusy = true) (hd : checkRemainder s.dec = d) :
    exec .decEoc s = .next { s with dec := d, rsp := s.rsp ++ [groupRecord d] } :=
  hd ▸ exec_of_effect (.decEoc hb)

theorem exec_decEnd_of_busy (hb : s.dec.dbusy = true) (hd : finishGroup s.dec = d) :
    exec .decEnd s = .next { s with dec := d, rsp := s.rsp ++ [groupRecord d] } :=
  hd ▸ exec_of_effect (.decEnded hb)

theorem checkRemainder_of_failed (hf : d.dfail = true) : checkRemainder d = d := by
  obtain ⟨hf', -, -⟩ | ⟨-, he⟩ := checkRemainder_cases d
  · simp [hf] at hf'
  · exact he

theorem checkRemainder_of_empty (hp : d.pbuf = []) : checkRemainder d = d := by
  obtain ⟨-, hp', -⟩ | ⟨-, he⟩ := checkRemainder_cases d
  exacts [absurd hp hp', he]

theorem checkRemainder_of_remainder (hf : d.dfail = false) (hp : d.pbuf ≠ []) : checkRemainder d = fail d :=
  if_pos ⟨hf, hp⟩

theorem finishGroup_of_good (hf : d.dfail = false) (hp : d.pbuf = []) :
    finishGroup d = { d with dbusy := false, acc := [], pbuf := [], dout := d.dout ++ closedRecords d.acc } := by
  obtain ⟨-, -, he⟩ | ⟨h, -⟩ := finishGroup_cases d
  · exact he
  · simp [hf, hp] at h

theorem finishGroup_of_failed (h : d.dfail = true ∨ d.pbuf ≠ []) :
    finishGroup d = { d with dbusy := false, dfail := true, acc := [], pbuf := [] } := by
  obtain ⟨hf, hp, -⟩ | ⟨-, he⟩ := finishGroup_cases d
  · simp [hf, hp] at h
  · exact he

theorem takeContainerByte_of_failed {p : Build} (b : Byte) (hf : d.dfail = true) : takeContainerByte p b d = d :=
  if_pos hf

theorem takeContainerByte_of_incomplete {p : Build} (b : Byte) (hf : d.dfail = false)
    (hl : d.pbuf.length + 1 ≠ p.packetSize) : takeContainerByte p b d = appendContainer b d := by
  obtain ⟨hf', -⟩ | ⟨-, -, he⟩ | ⟨-, hl', -⟩ := takeContainerByte_cases p b d
  · simp [hf] at hf'
  · exact he
  · exact absurd hl' hl

theorem takeContainerByte_of_complete {p : Build} (b : Byte) (hf : d.dfail = false)
    (hl : d.pbuf.length + 1 = p.packetSize) :
    takeContainerByte p b d = foldPacket p (d.pbuf ++ [b]) { d with pbuf := [] } := by
  obtain ⟨hf', -⟩ | ⟨-, hl', -⟩ | ⟨-, -, he⟩ := takeContainerByte_cases p b d
  · simp [hf] at hf'
  · exact absurd hl hl'
  · exact he

end Commands

/-- Settles O15: each case is one of the ways of `Effect`. -/
theorem decStartFollowsItsRule : Obligations.DecStartFollowsItsRule := by
  refine ⟨decode_encode .decStart, fun s => ⟨fun hb => ?_, fun hb => ?_⟩⟩
  · exact exec_of_effect (.violation hb)
  · exact exec_of_effect (.decStarted hb)

/-- Settles O17: the cases of `checkRemainder`. -/
theorem decEocFollowsItsRule : Obligations.DecEocFollowsItsRule := by
  refine ⟨decode_encode .decEoc, fun s => ⟨fun hb => ?_, fun hb hf => ?_, fun hb hf hp => ?_, fun hb hf hp => ?_⟩⟩
  · exact exec_of_effect (.violation (by simp [sequenceViolation, hb]))
  · rw [exec_decEoc_of_busy hb (checkRemainder_of_failed hf), groupRecord_of_failed hf]
  · rw [exec_decEoc_of_busy hb (checkRemainder_of_empty hp), groupRecord_of_good hf]
  · rw [exec_decEoc_of_busy hb (checkRemainder_of_remainder hf hp), groupRecord_of_failed (fail_dfail _)]
    rfl

/-- Settles O18: the cases of `finishGroup`. -/
theorem decEndFollowsItsRule : Obligations.DecEndFollowsItsRule := by
  refine ⟨decode_encode .decEnd, fun s => ⟨fun hb => ?_, fun hb hf hp => ?_, fun hb h => ?_⟩⟩
  · exact exec_of_effect (.violation (by simp [sequenceViolation, hb]))
  · rw [exec_decEnd_of_busy hb (finishGroup_of_good hf hp), groupRecord_of_good, closedRecords,
      funext dataRecord_eq_ofNat, ← List.append_assoc]
    · rfl
    · exact hf
  · rw [exec_decEnd_of_busy hb (finishGroup_of_failed h), groupRecord_of_failed rfl]

theorem decPut_word (imm8 : Byte) : 0x21000000 ||| imm8.setWidth 32 = encode (.decPut imm8) := by
  have hw : imm8.setWidth 32 = (imm8.setWidth 16).setWidth 32 := by simp
  rw [hw]
  exact packWord_or_setWidth 0x21 (imm8.setWidth 16)

/-! ## What the fold reads of a packet (R151 to R155, R158) -/

theorem readCounter_toNat (P : Bytes) : (readCounter P).toNat = (byteAt P 3).toNat % 16 := by
  rw [readCounter, toNat_extractLsb'_eq]
  omega

theorem readData_eq (P : Bytes) : readData P = (P.drop 8).take (readLen P) := by
  simp [readData, slice]

/-- Of the bytes that pass the check of `STATUS`, only 0 makes a first packet (R153). -/
theorem eq_first_iff_of_readStatus {P : Bytes} {st : Status} (h : readStatus P = some st) :
    st = .first ↔ byteAt P 4 = 0 := by
  have hcode : ∀ (b : Byte) (st : Status), Status.ofByte b = some st → b = st.code := by
    intro b st hb
    simp only [Status.ofByte] at hb
    split_ifs at hb <;> cases hb <;> assumption
  rw [hcode _ _ h]
  cases st <;> decide

theorem warnAfter_eq (w : Bool) (dcc : Count4) (P : Bytes) :
    warnAfter w (readCounter P) dcc = (w || decide ((byteAt P 3).toNat % 16 ≠ dcc.toNat)) := by
  simp only [warnAfter, ne_eq, ← BitVec.toNat_inj, readCounter_toNat]

/-- Settles O16: the cases of `takeContainerByte`, and of `foldPacket` for the packet a byte completes. -/
theorem decPutFollowsItsRule : Obligations.DecPutFollowsItsRule := by
  refine ⟨fun imm8 => by rw [decPut_word, decode_encode],
    fun imm8 s => ⟨fun hb => ?_, fun hb hf => ?_, fun hb hf hl => ?_, ?_⟩⟩
  · exact exec_of_effect (.violation (by simp [sequenceViolation, hb]))
  · rw [exec_decPut_of_busy hb (takeContainerByte_of_failed imm8 hf), groupRecord_of_failed hf]
  · rw [exec_decPut_of_busy hb (takeContainerByte_of_incomplete imm8 hf hl), groupRecord_of_good]
    · rfl
    · exact hf
  · rintro hb hf hl P len w rfl rfl rfl
    rw [exec_decPut_of_busy hb (takeContainerByte_of_complete imm8 hf hl), ← warnAfter_eq]
    generalize s.dec.pbuf ++ [imm8] = P
    obtain ⟨hnone, he⟩ | ⟨st, data, hsome, he⟩ := foldPacket_cases Config.build P { s.dec with pbuf := [] } <;> rw [he]
    · refine ⟨fun _ => ?_, fun hst hlen => ?_⟩
      · rw [groupRecord_of_failed (fail_dfail _)]
        rfl
      · obtain h | h := (readHead_eq_none_iff ..).1 hnone
        · exact absurd hst (Nat.not_le.2 h)
        · exact absurd hlen (Nat.not_le.2 h)
    · obtain ⟨hst, -, rfl⟩ := (readHead_eq_some_iff ..).1 hsome
      refine ⟨fun hbad => ?_, fun _ _ => ?_⟩
      · have hnone := (readHead_eq_none_iff Config.build P).2 hbad
        simp [hnone] at hsome
      · rw [groupRecord_of_good]
        · simp only [foldData, eq_first_iff_of_readStatus hst, readData_eq]
          rfl
        · exact hf

/-- Bytes that agree one by one are the same bytes (R11). -/
theorem eq_of_byteAt_eq {a b : Bytes} (hlen : a.length = b.length) (h : ∀ i < a.length, byteAt a i = byteAt b i) :
    a = b := by
  refine List.ext_getElem hlen fun i hi hi' => ?_
  simpa [byteAt, hi, hi'] using h i hi

/-- Settles O21: the counter decides what is counted, and the head and the data what is folded. -/
theorem foldIgnoresEverythingElse : Obligations.FoldIgnoresEverythingElse := by
  intro p P Q d _ hP hQ h3 h4 h6 h7 hdata
  have hcount : countPacket P d = countPacket Q d := by
    have hread : readCounter P = readCounter Q := by
      rw [← BitVec.toNat_inj, readCounter_toNat, readCounter_toNat, h3]
    rw [countPacket, countPacket, hread]
  have hstatus : readStatus P = readStatus Q := congrArg Status.ofByte h4
  have hlen : readLen P = readLen Q := by rw [readLen, readLen, h6, h7]
  have hread : readData P = readData Q := by
    rw [readData_eq, readData_eq, ← hlen]
    refine eq_of_byteAt_eq (by simp [hP, hQ]) fun i hi => ?_
    have hi : i < readLen P := Nat.lt_of_lt_of_le hi (List.length_take_le ..)
    have := hdata (8 + i) (by omega) (by rw [readLen] at hi; omega)
    rw [← byteAt_drop, ← byteAt_drop] at this
    simpa [byteAt, List.getElem?_take, hi] using this
  rw [foldPacket, foldPacket, readHead, readHead, hstatus, hlen, hread, hcount]

/-! ## The continuity warning changes nothing else (R151, R182) -/

/-- `d` with another count and another warning. -/
def Dec.withWarning (c : Count4) (w : Bool) (d : Dec) : Dec := { d with dcc := c, dccw := w }

section WithWarning

variable {d : Dec} {s t : State} {i : Instr} {c : Count4} {w : Bool}

theorem checkRemainder_withWarning (d : Dec) :
    checkRemainder (d.withWarning c w) = (checkRemainder d).withWarning c w := by
  rw [checkRemainder, checkRemainder, apply_ite (Dec.withWarning c w)]
  rfl

theorem finishGroup_withWarning (d : Dec) : finishGroup (d.withWarning c w) = (finishGroup d).withWarning c w := by
  have hdeliver (d : Dec) : deliver (d.withWarning c w) = (deliver d).withWarning c w := by
    rw [deliver, deliver, apply_ite (Dec.withWarning c w)]
    rfl
  rw [finishGroup, finishGroup, checkRemainder_withWarning, hdeliver]
  rfl

theorem foldPacket_withWarning (p : Build) (P : Bytes) (d : Dec) :
    ∃ c' w', foldPacket p P (d.withWarning c w) = (foldPacket p P d).withWarning c' w' := by
  refine ⟨nextCount c, warnAfter w (readCounter P) c, ?_⟩
  rw [foldPacket, foldPacket]
  cases readHead p P <;> rfl

theorem takeContainerByte_withWarning (p : Build) (b : Byte) (d : Dec) :
    ∃ c' w', takeContainerByte p b (d.withWarning c w) = (takeContainerByte p b d).withWarning c' w' := by
  obtain ⟨hf, he⟩ | ⟨hf, hl, he⟩ | ⟨hf, hl, he⟩ := takeContainerByte_cases p b d <;> rw [he]
  · exact ⟨c, w, takeContainerByte_of_failed b hf⟩
  · exact ⟨c, w, takeContainerByte_of_incomplete b hf hl⟩
  · obtain ⟨c', w', hfold⟩ := foldPacket_withWarning (c := c) (w := w) p (d.pbuf ++ [b]) { d with pbuf := [] }
    exact ⟨c', w', (takeContainerByte_of_complete (d := d.withWarning c w) b hf hl).trans hfold⟩

/-- The two states differ in `DCC`, in `DCCW` and in bit 2 of the responses so far, if in anything. -/
structure SameButWarning (s s' : State) : Prop where
  cfg : s'.cfg = s.cfg
  enc : s'.enc = s.enc
  host : s'.host = s.host
  dec : ∃ c w, s'.dec = s.dec.withWarning c w
  codes : s'.rsp.map (fun r => r.extractLsb' 0 2) = s.rsp.map (fun r => r.extractLsb' 0 2)

/-- A change of DEC that keeps the difference is answered with the same `CODE`, which R159 takes from `DFAIL`. -/
theorem sameButWarning_respondGroup {f : Dec → Dec}
    (hf : ∃ c' w', f (s.dec.withWarning c w) = (f s.dec).withWarning c' w') :
    SameButWarning (respondGroup (s.onDec f))
      (respondGroup (State.onDec f { s with dec := s.dec.withWarning c w })) where
  cfg := rfl
  enc := rfl
  host := rfl
  dec := hf
  codes := by
    obtain ⟨c', w', hf⟩ := hf
    have hfail : (f (s.dec.withWarning c w)).dfail = (f s.dec).dfail := by
      rw [hf]
      rfl
    simp [rspRecord_code, hfail]

theorem Effect.with_warning (he : Effect s i t) (c : Count4) (w : Bool) :
    ∃ t', Effect { s with dec := s.dec.withWarning c w } i t' ∧ SameButWarning t t' := by
  cases hi : isDecCommand i with
  | false => exact ⟨_, he.beside_dec hi _, rfl, rfl, rfl, ⟨c, w, by rw [he.dec_of_not_dec hi]⟩, rfl⟩
  | true =>
    cases he with
    | violation hv => exact ⟨_, .violation (by cases i <;> exact hv), rfl, rfl, rfl, ⟨c, w, rfl⟩, rfl⟩
    | decStarted hb => exact ⟨_, .decStarted hb, rfl, rfl, rfl, ⟨0, false, rfl⟩, rfl⟩
    | decPut hb => exact ⟨_, .decPut hb, sameButWarning_respondGroup (takeContainerByte_withWarning ..)⟩
    | decEoc hb => exact ⟨_, .decEoc hb, sameButWarning_respondGroup ⟨c, w, checkRemainder_withWarning _⟩⟩
    | decEnded hb => exact ⟨_, .decEnded hb, sameButWarning_respondGroup ⟨c, w, finishGroup_withWarning _⟩⟩
    | chidRefused | chidLoaded | startWithoutChid | encStarted | encPut | encEnded => cases hi

theorem step_with_warning (h : step s = .next t) (c : Count4) (w : Bool) :
    ∃ t', step { s with dec := s.dec.withWarning c w } = .next t' ∧ SameButWarning t t' := by
  obtain ⟨hp, rfl⟩ | ⟨_, _, hp, rfl⟩ | ⟨_, hp, rfl⟩ | ⟨_, _, _, hp, hd, h⟩ | ⟨_, _, _, hp, hd, rfl⟩ := step_cases h
  · exact ⟨_, step_of_idle hp, rfl, rfl, rfl, ⟨c, w, rfl⟩, rfl⟩
  · exact ⟨_, step_of_take hp, rfl, rfl, rfl, ⟨c, w, rfl⟩, rfl⟩
  · exact ⟨_, step_of_reset hp, rfl, rfl, rfl, ⟨0, false, rfl⟩, rfl⟩
  · obtain ⟨t', he, hsame⟩ := (effect_of_exec h).with_warning c w
    have hcommand := step_of_command (s := { s with dec := s.dec.withWarning c w }) hp hd
    exact ⟨t', hcommand.trans (exec_of_effect he), hsame⟩
  · exact ⟨_, step_of_illegal hp hd, rfl, rfl, rfl, ⟨c, w, rfl⟩, rfl⟩

end WithWarning

/-- Settles O35: no condition of a step reads `DCC` or `DCCW`, and of a response they reach bit 2 alone. -/
theorem warningChangesNothingElse : Obligations.WarningChangesNothingElse := by
  intro s t dcc dccw h
  obtain ⟨t', h', hcfg, henc, hhost, ⟨c, w, hdec⟩, hcodes⟩ := step_with_warning h dcc dccw
  refine ⟨t', h', ?_⟩
  rw [hdec]
  exact ⟨rfl, rfl, rfl, rfl, rfl, henc, hcfg, hhost, hcodes⟩

/-! ## The continuity warning of a packet sequence (R160, R165) -/

/-- The warning of packets that stand from position `n` on: does one carry another counter than its position's? -/
def warningFrom (n : Nat) (pkts : List Bytes) : Bool :=
  (pkts.zipIdx n).any (fun x => decide (readCounter x.1 ≠ BitVec.ofNat 4 x.2))

theorem counterWarning_eq (pkts : List Bytes) : counterWarning pkts = warningFrom 0 pkts := rfl

@[simp] theorem warningFrom_nil (n : Nat) : warningFrom n [] = false := rfl

@[simp] theorem warningFrom_cons (n : Nat) (P : Bytes) (pkts : List Bytes) :
    warningFrom n (P :: pkts) = (decide (readCounter P ≠ BitVec.ofNat 4 n) || warningFrom (n + 1) pkts) := rfl

theorem warningFrom_append (n : Nat) (pkts more : List Bytes) :
    warningFrom n (pkts ++ more) = (warningFrom n pkts || warningFrom (n + pkts.length) more) := by
  rw [warningFrom, List.zipIdx_append, List.any_append]
  rfl

theorem warningFrom_eq_true_iff (n : Nat) (pkts : List Bytes) :
    warningFrom n pkts = true ↔ ∃ i P, pkts[i]? = some P ∧ readCounter P ≠ BitVec.ofNat 4 (n + i) := by
  simp only [warningFrom, List.any_eq_true, decide_eq_true_eq, Prod.exists, List.mk_mem_zipIdx_iff_le_and_getElem?_sub]
  constructor
  · rintro ⟨P, i, ⟨hi, hP⟩, hne⟩
    exact ⟨i - n, P, hP, by rwa [Nat.add_sub_cancel' hi]⟩
  · rintro ⟨i, P, hP, hne⟩
    exact ⟨P, n + i, ⟨Nat.le_add_right .., by rwa [Nat.add_sub_cancel_left]⟩, hne⟩

/-- A counter that is its position's makes the next position its successor, and one that is not decides both warnings. -/
theorem warningFrom_eq_predecessorWarning (n : Nat) (pkts : List Bytes) :
    warningFrom n pkts = predecessorWarning (BitVec.ofNat 4 n) pkts := by
  induction pkts generalizing n with
  | nil => rfl
  | cons P pkts ih =>
    rw [warningFrom_cons, predecessorWarning]
    by_cases hP : readCounter P = BitVec.ofNat 4 n
    · rw [ih, hP, nextCount_ofNat]
    · simp [hP]

/-- Settles O57, from any position on. -/
theorem counterWarningEitherWay : Obligations.CounterWarningEitherWay :=
  warningFrom_eq_predecessorWarning 0

/-! ## Containers cut into packets (R160, R166) -/

section Cut

variable {α : Type} {p : Build} {c : Bytes} {cs : List Bytes}

theorem packetSize_pos (hp : p.wf = true) : 0 < p.packetSize :=
  Nat.zero_lt_of_lt (p.wf_iff.1 hp).1

/-- Every sequence is whole pieces and a rest shorter than one. -/
theorem exists_whole_pieces {k : Nat} (hk : 0 < k) (l : List α) :
    ∃ (gs : List (List α)) (rest : List α), (∀ g ∈ gs, g.length = k) ∧ rest.length < k ∧ l = gs.flatten ++ rest := by
  induction hn : l.length using Nat.strong_induction_on generalizing l with
  | _ n ih =>
    rcases Nat.lt_or_ge l.length k with h | h
    · exact ⟨[], l, nofun, h, rfl⟩
    · obtain ⟨gs, rest, hgs, hrest, hl⟩ := ih _ (by simp; omega) (l.drop k) rfl
      refine ⟨l.take k :: gs, rest, List.forall_mem_cons.2 ⟨by simpa using h, hgs⟩, hrest, ?_⟩
      rw [List.flatten_cons, List.append_assoc, ← hl, List.take_append_drop]

/-- Cutting undoes putting packets one after the other, and drops a rest that is no packet. -/
theorem cutPackets_flatten_append {Ps : List Bytes} {rest : Bytes} (hPs : ∀ P ∈ Ps, P.length = p.packetSize)
    (hrest : rest.length < p.packetSize) : cutPackets p (Ps.flatten ++ rest) = Ps := by
  have hcount : (Ps.flatten ++ rest).length / p.packetSize = Ps.length := by
    rw [List.length_append, flatten_length_of_forall hPs, Nat.mul_comm, Nat.mul_add_div (by omega),
      Nat.div_eq_of_lt hrest, Nat.add_zero]
  rw [cutPackets, hcount]
  conv_rhs => rw [eq_map_range_of_whole_pieces (rest := rest) (by omega) hPs rfl]
  simp [slice, Nat.add_mul]

/-- What the cut leaves over: the bytes after the last whole packet (R150). -/
def packetRest (p : Build) (c : Bytes) : Bytes := c.drop (c.length / p.packetSize * p.packetSize)

theorem packetRest_length (p : Build) (c : Bytes) : (packetRest p c).length = c.length % p.packetSize := by
  rw [packetRest, List.length_drop, Nat.mod_eq_sub_div_mul]

theorem packetRest_length_lt (hp : p.wf = true) (c : Bytes) : (packetRest p c).length < p.packetSize := by
  rw [packetRest_length]
  exact Nat.mod_lt _ (packetSize_pos hp)

theorem wholePackets_iff : wholePackets p c = true ↔ packetRest p c = [] := by
  rw [wholePackets, beq_iff_eq, ← packetRest_length, List.length_eq_zero_iff]

theorem wholePackets_of_mod (h : c.length % p.packetSize = 0) : wholePackets p c = true :=
  beq_iff_eq.2 h

theorem not_wholePackets_of_mod (h : c.length % p.packetSize ≠ 0) : wholePackets p c = false :=
  beq_eq_false_iff_ne.2 h

theorem cutPackets_length (p : Build) (c : Bytes) : (cutPackets p c).length = c.length / p.packetSize := by
  simp [cutPackets]

/-- A container is its packets, each of `PACKET_SIZE` bytes, and the rest. -/
theorem cutPackets_spec (hp : p.wf = true) (c : Bytes) :
    (∀ P ∈ cutPackets p c, P.length = p.packetSize) ∧ (cutPackets p c).flatten ++ packetRest p c = c := by
  obtain ⟨Ps, rest, hPs, hrest, hc⟩ := exists_whole_pieces (packetSize_pos hp) c
  have hcut : cutPackets p c = Ps := by rw [hc, cutPackets_flatten_append hPs hrest]
  have hdrop : packetRest p c = rest := by
    rw [packetRest, ← cutPackets_length, hcut, hc, List.drop_left' (flatten_length_of_forall hPs)]
  rw [hcut, hdrop]
  exact ⟨hPs, hc.symm⟩

theorem cutPackets_flatten (hp : p.wf = true) (hc : wholePackets p c = true) : (cutPackets p c).flatten = c := by
  have hsplit := (cutPackets_spec hp c).2
  rwa [wholePackets_iff.1 hc, List.append_nil] at hsplit

theorem flatMap_cutPackets_flatten (hp : p.wf = true) (hcs : ∀ c ∈ cs, wholePackets p c = true) :
    (cs.flatMap (cutPackets p)).flatten = cs.flatten := by
  induction cs with
  | nil => rfl
  | cons c cs ih =>
    obtain ⟨hc, hcs⟩ := List.forall_mem_cons.1 hcs
    rw [List.flatMap_cons, List.flatten_append, cutPackets_flatten hp hc, ih hcs, List.flatten_cons]

theorem mem_flatMap_cutPackets_length (hp : p.wf = true) {P : Bytes} (hP : P ∈ cs.flatMap (cutPackets p)) :
    P.length = p.packetSize := by
  obtain ⟨c, -, hP⟩ := List.mem_flatMap.1 hP
  exact (cutPackets_spec hp c).1 P hP

/-- Packets are determined by their bytes. -/
theorem packets_eq_of_flatten_eq (hp : p.wf = true) {Ps Qs : List Bytes} (hPs : ∀ P ∈ Ps, P.length = p.packetSize)
    (hQs : ∀ Q ∈ Qs, Q.length = p.packetSize) (h : Ps.flatten = Qs.flatten) : Ps = Qs := by
  have hpos : ([] : Bytes).length < p.packetSize := packetSize_pos hp
  rw [← cutPackets_flatten_append hPs hpos, h, cutPackets_flatten_append hQs hpos]

end Cut

/-! ## `DECODE` of whole containers (R160, R166) -/

section DecodeGroup

variable {p : Build} {cs : List Bytes} {pkts : List Bytes}

/-- `DECODE` on the packets of a group whose containers are whole (R160). -/
def decodePackets (p : Build) (pkts : List Bytes) : GroupResult :=
  match foldPackets p [] pkts with
  | none => .framingError
  | some out => .ok out (counterWarning pkts)

theorem decodePackets_of_some {out : Bytes} (h : foldPackets p [] pkts = some out) :
    decodePackets p pkts = .ok out (counterWarning pkts) := by
  rw [decodePackets, h]

theorem decodeGroup_of_whole (hcs : ∀ c ∈ cs, wholePackets p c = true) :
    decodeGroup p cs = decodePackets p (cs.flatMap (cutPackets p)) :=
  if_pos (List.all_eq_true.2 hcs)

theorem decodeGroup_of_not_whole {c : Bytes} (hc : c ∈ cs) (hw : wholePackets p c = false) :
    decodeGroup p cs = .framingError :=
  if_neg fun hall => by simpa [hw] using List.all_eq_true.1 hall c hc

theorem decodeGroup_of_fold_none (h : foldPackets p [] (cs.flatMap (cutPackets p)) = none) :
    decodeGroup p cs = .framingError := by
  rw [decodeGroup, h]
  split <;> rfl

/-- Only the packets matter, not the containers they stand in. -/
theorem decodeGroup_of_flatten_eq (hp : p.wf = true) (hcs : ∀ c ∈ cs, c.length % p.packetSize = 0)
    (hpkts : ∀ P ∈ pkts, P.length = p.packetSize) (h : cs.flatten = pkts.flatten) :
    decodeGroup p cs = decodePackets p pkts := by
  have hwhole : ∀ c ∈ cs, wholePackets p c = true := fun c hc => wholePackets_of_mod (hcs c hc)
  rw [decodeGroup_of_whole hwhole]
  congr 1
  refine packets_eq_of_flatten_eq hp (fun P hP => mem_flatMap_cutPackets_length hp hP) hpkts ?_
  rw [flatMap_cutPackets_flatten hp hwhole, h]

end DecodeGroup

/-- Settles O52: both lists hold the packets of the second. -/
theorem containerBoundariesDoNotMatter : Obligations.ContainerBoundariesDoNotMatter := by
  intro p cs cs' hp hcs hcs' h
  have hsize : ∀ P ∈ cs'.flatMap (cutPackets p), P.length = p.packetSize :=
    fun P hP => mem_flatMap_cutPackets_length hp hP
  have hflat : (cs'.flatMap (cutPackets p)).flatten = cs'.flatten :=
    flatMap_cutPackets_flatten hp fun c hc => wholePackets_of_mod (hcs' c hc)
  rw [decodeGroup_of_flatten_eq hp hcs hsize (h.trans hflat.symm), decodeGroup_of_flatten_eq hp hcs' hsize hflat.symm]

/-! ## The fold of the packets of an encode (R155, R162) -/

section Fold

variable {p : Build} {input : Bytes} {chid : ChannelId}

theorem foldPackets_append (p : Build) (acc : Bytes) (pkts more : List Bytes) :
    foldPackets p acc (pkts ++ more) = (foldPackets p acc pkts).bind (fun a => foldPackets p a more) := by
  induction pkts generalizing acc with
  | nil => rfl
  | cons P pkts ih =>
    rw [List.cons_append, foldPackets, foldPackets]
    cases readHead p P with
    | none => rfl
    | some x => exact ih _

theorem foldPackets_cons_of_some {P data : Bytes} {st : Status} (h : readHead p P = some (st, data))
    (acc : Bytes) (pkts : List Bytes) : foldPackets p acc (P :: pkts) = foldPackets p (foldData st data acc) pkts := by
  rw [foldPackets, h]

/-- Packets none of which is a first packet are appended. -/
theorem foldPackets_of_not_first {ι : Type} {is : List ι} {pkt data : ι → Bytes}
    (h : ∀ i ∈ is, ∃ st, st ≠ .first ∧ readHead p (pkt i) = some (st, data i)) (acc : Bytes) :
    foldPackets p acc (is.map pkt) = some (acc ++ (is.map data).flatten) := by
  induction is generalizing acc with
  | nil => simp [foldPackets]
  | cons i is ih =>
    obtain ⟨⟨st, hst, hi⟩, his⟩ := List.forall_mem_cons.1 h
    rw [List.map_cons, foldPackets_cons_of_some hi, ih his, foldData, if_neg hst]
    simp

theorem readHead_packetAt (hp : p.wf = true) (input : Bytes) (chid : ChannelId) (i : Nat) :
    readHead p (packetAt p input chid i) = some (statusAt (chunkCount p input) i, chunkAt p input i) :=
  readHead_buildPacket _ _ _ _ _ hp (by rw [chunkAt_length]; exact Nat.min_le_left ..)

theorem statusAt_succ_ne_first (n i : Nat) : statusAt n (i + 1) ≠ .first := by
  rw [statusAt, if_neg (Nat.succ_ne_zero i)]
  split <;> decide

theorem chunkCount_ne_zero (hp : p.wf = true) (hne : input ≠ []) : chunkCount p input ≠ 0 := by
  rwa [Ne, chunkCount, ceilDiv_eq_zero_iff (p.chunkSize_pos hp), List.length_eq_zero_iff]

/-- The packets of an encode that has any replace what was there: the first is a first packet, no other is. -/
theorem foldPackets_packetsOf (hp : p.wf = true) (hne : input ≠ []) (chid : ChannelId) (acc : Bytes) :
    foldPackets p acc (packetsOf p input chid) = some input := by
  have hchunks : ((List.range (chunkCount p input)).map (chunkAt p input)).flatten = input := by
    rw [chunks_eq_pieces, pieces_flatten (p.chunkSize_pos hp)]
  obtain ⟨m, hm⟩ := Nat.exists_eq_add_one_of_ne_zero (chunkCount_ne_zero hp hne)
  rw [hm, List.range_succ_eq_map, List.map_cons, List.map_map, List.flatten_cons] at hchunks
  rw [packetsOf, hm, List.range_succ_eq_map, List.map_cons, List.map_map,
    foldPackets_cons_of_some (readHead_packetAt hp input chid 0), foldPackets_of_not_first
      (pkt := packetAt p input chid ∘ Nat.succ) (data := chunkAt p input ∘ Nat.succ)
      fun i _ => ⟨_, statusAt_succ_ne_first _ i, readHead_packetAt hp input chid (i + 1)⟩]
  rw [foldData, show statusAt (chunkCount p input) 0 = .first from rfl, if_pos rfl, hchunks]

theorem foldPackets_nil_packetsOf (hp : p.wf = true) (input : Bytes) (chid : ChannelId) :
    foldPackets p [] (packetsOf p input chid) = some input := by
  rcases eq_or_ne input [] with rfl | hne
  · rw [packetsOf, show chunkCount p [] = 0 from ceilDiv_zero (p.chunkSize_pos hp)]
    rfl
  · exact foldPackets_packetsOf hp hne chid []

/-- The counters of an encode are its positions, so from position `n` on they fit exactly when `n` is a multiple of 16. -/
theorem warningFrom_packetsOf (n : Nat) (p : Build) (input : Bytes) (chid : ChannelId) :
    warningFrom n (packetsOf p input chid) = (decide (chunkCount p input ≠ 0) && decide (n % 16 ≠ 0)) := by
  have hcounter (i : Nat) : readCounter (packetAt p input chid i) ≠ BitVec.ofNat 4 (n + i) ↔ n % 16 ≠ 0 := by
    rw [packetAt, readCounter_buildPacket, Ne, ← BitVec.toNat_inj, BitVec.toNat_ofNat, BitVec.toNat_ofNat]
    omega
  rw [Bool.eq_iff_iff, warningFrom_eq_true_iff]
  constructor
  · rintro ⟨i, P, hP, hne⟩
    obtain ⟨rfl, hi⟩ := packetsOf_getElem? hP
    simp [(hcounter i).1 hne, Nat.ne_of_gt (Nat.zero_lt_of_lt hi)]
  · intro h
    obtain ⟨hcount, hn⟩ : chunkCount p input ≠ 0 ∧ n % 16 ≠ 0 := by simpa using h
    exact ⟨0, packetAt p input chid 0, by simp [packetsOf, Nat.pos_of_ne_zero hcount], (hcounter 0).2 hn⟩

/-- The containers of an encode are whole and hold its packets. -/
theorem encodeInput_whole (hp : p.wf = true) : ∀ c ∈ encodeInput p input chid, c.length % p.packetSize = 0 := by
  intro c hc
  obtain ⟨j, hj⟩ := List.getElem?_of_mem hc
  rw [container_length hp hj, Nat.mul_mod_left]

theorem encodeInput_flatten (hp : p.wf = true) :
    (encodeInput p input chid).flatten = (packetsOf p input chid).flatten := by
  rw [encodeInput, ← List.flatten_flatten, groupPackets_eq_pieces, pieces_flatten (p.maxPkts_pos hp)]

end Fold

/-- Settles O51: the packets of an encode fold to its input, and their counters are their positions. -/
theorem decodeOfEncodeIsTheInput : Obligations.DecodeOfEncodeIsTheInput := by
  intro p input chid hp
  rw [decodeGroup_of_flatten_eq hp (encodeInput_whole hp) (fun P => mem_packetsOf_length hp) (encodeInput_flatten hp),
    decodePackets_of_some (foldPackets_nil_packetsOf hp input chid), counterWarning_eq, warningFrom_packetsOf]
  simp

/-- Settles O56: the first packet of the second encode replaces what the first left, and its counters fit if the second
begins at a multiple of 16. -/
theorem secondEncodeReplacesTheFirst : Obligations.SecondEncodeReplacesTheFirst := by
  intro p a b chid chid' hp hb
  have hfold : foldPackets p [] (packetsOf p a chid ++ packetsOf p b chid') = some b := by
    rw [foldPackets_append, foldPackets_nil_packetsOf hp, Option.bind_some, foldPackets_packetsOf hp hb]
  rw [decodeGroup_of_flatten_eq hp
      (List.forall_mem_append.2 ⟨encodeInput_whole hp, encodeInput_whole hp⟩)
      (List.forall_mem_append.2 ⟨fun P => mem_packetsOf_length hp, fun P => mem_packetsOf_length hp⟩)
      (by rw [List.flatten_append, List.flatten_append, encodeInput_flatten hp, encodeInput_flatten hp]),
    decodePackets_of_some hfold, counterWarning_eq, warningFrom_append, warningFrom_packetsOf, warningFrom_packetsOf]
  simp [chunkCount_ne_zero hp hb]

/-! ## The bytes of a group, packet by packet (R142, R150) -/

/-- The state changes of a run of `DEC.PUT`s. -/
def takeBytes (p : Build) (bytes : Bytes) (d : Dec) : Dec := bytes.foldl (fun d b => takeContainerByte p b d) d

/-- The state changes of the commands of one container. -/
def takeContainer (p : Build) (c : Bytes) (d : Dec) : Dec := checkRemainder (takeBytes p c d)

/-- The state changes of the commands of a group between `DEC.START` and `DEC.END`. -/
def takeContainers (p : Build) (cs : List Bytes) (d : Dec) : Dec := cs.foldl (fun d c => takeContainer p c d) d

section Take

variable {p : Build} {d : Dec}

theorem takeBytes_append (p : Build) (bytes more : Bytes) (d : Dec) :
    takeBytes p (bytes ++ more) d = takeBytes p more (takeBytes p bytes d) :=
  List.foldl_append

theorem takeBytes_dbusy (p : Build) (bytes : Bytes) (d : Dec) : (takeBytes p bytes d).dbusy = d.dbusy := by
  induction bytes generalizing d with
  | nil => rfl
  | cons b bytes ih => exact (ih _).trans (takeContainerByte_dbusy ..)

theorem takeBytes_dout (p : Build) (bytes : Bytes) (d : Dec) : (takeBytes p bytes d).dout = d.dout := by
  induction bytes generalizing d with
  | nil => rfl
  | cons b bytes ih => exact (ih _).trans (takeContainerByte_dout ..)

theorem takeBytes_of_failed (bytes : Bytes) (hf : d.dfail = true) : takeBytes p bytes d = d := by
  induction bytes with
  | nil => rfl
  | cons b bytes ih => rwa [takeBytes, List.foldl_cons, takeContainerByte_of_failed b hf]

theorem takeContainer_of_failed (c : Bytes) (hf : d.dfail = true) : takeContainer p c d = d := by
  rw [takeContainer, takeBytes_of_failed c hf, checkRemainder_of_failed hf]

theorem takeContainers_of_failed (cs : List Bytes) (hf : d.dfail = true) : takeContainers p cs d = d := by
  induction cs with
  | nil => rfl
  | cons c cs ih => rwa [takeContainers, List.foldl_cons, takeContainer_of_failed c hf]

theorem takeContainer_dbusy (p : Build) (c : Bytes) (d : Dec) : (takeContainer p c d).dbusy = d.dbusy :=
  (checkRemainder_dbusy _).trans (takeBytes_dbusy ..)

theorem takeContainers_dbusy (p : Build) (cs : List Bytes) (d : Dec) : (takeContainers p cs d).dbusy = d.dbusy := by
  induction cs generalizing d with
  | nil => rfl
  | cons c cs ih => exact (ih _).trans (takeContainer_dbusy ..)

theorem takeContainers_dout (p : Build) (cs : List Bytes) (d : Dec) : (takeContainers p cs d).dout = d.dout := by
  induction cs generalizing d with
  | nil => rfl
  | cons c cs ih => exact (ih _).trans ((checkRemainder_dout _).trans (takeBytes_dout ..))

theorem DecInv.takeBytes (hp : p.wf = true) (h : DecInv p d) (hb : d.dbusy = true) (bytes : Bytes) :
    DecInv p (takeBytes p bytes d) := by
  induction bytes generalizing d with
  | nil => exact h
  | cons b bytes ih => exact ih (h.takeContainerByte hp hb) (by simpa using hb)

/-- Bytes that complete no packet wait in `PBUF`. -/
theorem takeBytes_of_short (hf : d.dfail = false) (hl : d.pbuf.length + bytes.length < p.packetSize) :
    takeBytes p bytes d = { d with pbuf := d.pbuf ++ bytes } := by
  induction bytes generalizing d with
  | nil => simp [takeBytes]
  | cons b bytes ih =>
    rw [List.length_cons] at hl
    rw [takeBytes, List.foldl_cons, takeContainerByte_of_incomplete b hf (by omega)]
    refine (ih (d := appendContainer b d) hf (by simp; omega)).trans ?_
    simp [appendContainer]

/-- The bytes of a packet leave `PBUF` with the last of them, and are folded. -/
theorem takeBytes_packet (hp : p.wf = true) (hf : d.dfail = false) (hb : d.pbuf = []) {P : Bytes}
    (hP : P.length = p.packetSize) : takeBytes p P d = foldPacket p P d := by
  have hne : P ≠ [] := List.length_pos_iff.1 (hP ▸ packetSize_pos hp)
  have hlen := congrArg List.length (List.dropLast_append_getLast hne)
  rw [List.length_append, List.length_singleton, hP] at hlen
  have hpbuf : ({ d with pbuf := [] } : Dec) = d := by rw [← hb]
  conv_lhs => rw [← List.dropLast_append_getLast hne]
  rw [takeBytes_append, takeBytes_of_short hf (by rw [hb, List.length_nil]; omega), hb, List.nil_append]
  refine (takeContainerByte_of_complete (d := { d with pbuf := P.dropLast }) _ hf hlen).trans ?_
  rw [List.dropLast_append_getLast]
  exact congrArg (foldPacket p P) hpbuf

/-- A group in progress that stands between two packets and has met `n` of them. -/
structure Ready (n : Nat) (d : Dec) : Prop where
  good : d.dfail = false
  empty : d.pbuf = []
  count : d.dcc = BitVec.ofNat 4 n

/-- `d` after `pkts`, from position `n` on, have been folded to `acc`. -/
def Dec.folded (n : Nat) (pkts : List Bytes) (acc : Bytes) (d : Dec) : Dec :=
  { d with acc := acc, dcc := BitVec.ofNat 4 (n + pkts.length), dccw := d.dccw || warningFrom n pkts }

theorem Ready.folded {n : Nat} (h : Ready n d) (pkts : List Bytes) (acc : Bytes) :
    Ready (n + pkts.length) (d.folded n pkts acc) :=
  ⟨h.good, h.empty, rfl⟩

theorem Dec.folded_nil {n : Nat} (h : Ready n d) : d.folded n [] d.acc = d := by
  rw [Dec.folded, warningFrom_nil, Bool.or_false, List.length_nil, Nat.add_zero, ← h.count]

theorem Dec.folded_folded (n : Nat) (pkts more : List Bytes) (acc acc' : Bytes) (d : Dec) :
    (d.folded n pkts acc).folded (n + pkts.length) more acc' = d.folded n (pkts ++ more) acc' := by
  simp [Dec.folded, warningFrom_append, Bool.or_assoc, Nat.add_assoc]

theorem foldPacket_of_ready {n : Nat} (h : Ready n d) (P : Bytes) :
    (readHead p P = none ∧ (foldPacket p P d).dfail = true) ∨
    (∃ st data, readHead p P = some (st, data) ∧ foldPacket p P d = d.folded n [P] (foldData st data d.acc)) := by
  obtain ⟨hnone, he⟩ | ⟨st, data, hsome, he⟩ := foldPacket_cases p P d <;> rw [he]
  · exact .inl ⟨hnone, rfl⟩
  · refine .inr ⟨st, data, hsome, ?_⟩
    rw [countPacket, h.count, nextCount_ofNat, warnAfter, Dec.folded, warningFrom_cons, warningFrom_nil, Bool.or_false]
    rfl

/-- The bytes of whole packets are folded as `DECODE` folds the packets, or the group fails. -/
theorem takeBytes_flatten {n : Nat} {pkts : List Bytes} (hp : p.wf = true) (h : Ready n d)
    (hpkts : ∀ P ∈ pkts, P.length = p.packetSize) :
    (foldPackets p d.acc pkts = none ∧ (takeBytes p pkts.flatten d).dfail = true) ∨
    (∃ acc, foldPackets p d.acc pkts = some acc ∧ takeBytes p pkts.flatten d = d.folded n pkts acc) := by
  induction pkts generalizing n d with
  | nil => exact .inr ⟨d.acc, rfl, (Dec.folded_nil h).symm⟩
  | cons P pkts ih =>
    obtain ⟨hP, hpkts⟩ := List.forall_mem_cons.1 hpkts
    rw [List.flatten_cons, takeBytes_append, takeBytes_packet hp h.good h.empty hP, foldPackets]
    obtain ⟨hnone, hfail⟩ | ⟨st, data, hsome, he⟩ := foldPacket_of_ready (p := p) h P
    · rw [hnone, takeBytes_of_failed _ hfail]
      exact .inl ⟨rfl, hfail⟩
    · rw [hsome, he]
      obtain ⟨hnone, hfail⟩ | ⟨acc, hacc, he'⟩ := ih (h.folded [P] (foldData st data d.acc)) hpkts
      · exact .inl ⟨hnone, hfail⟩
      · exact .inr ⟨acc, hacc, by rw [he', List.length_singleton]; exact Dec.folded_folded n [P] pkts _ acc d⟩

/-- Any bytes: those of their whole packets are folded, and the rest waits in `PBUF` (R150). -/
theorem takeBytes_of_ready {n : Nat} (hp : p.wf = true) (h : Ready n d) (c : Bytes) :
    (foldPackets p d.acc (cutPackets p c) = none ∧ (takeBytes p c d).dfail = true) ∨
    (∃ acc, foldPackets p d.acc (cutPackets p c) = some acc ∧
      takeBytes p c d = { d.folded n (cutPackets p c) acc with pbuf := packetRest p c }) := by
  obtain ⟨hsize, hsplit⟩ := cutPackets_spec hp c
  have htake : takeBytes p c d = takeBytes p (packetRest p c) (takeBytes p (cutPackets p c).flatten d) := by
    rw [← takeBytes_append, hsplit]
  rw [htake]
  obtain ⟨hnone, hfail⟩ | ⟨acc, hacc, he⟩ := takeBytes_flatten hp h hsize
  · rw [takeBytes_of_failed _ hfail]
    exact .inl ⟨hnone, hfail⟩
  · have hready := h.folded (cutPackets p c) acc
    have hshort : (d.folded n (cutPackets p c) acc).pbuf.length + (packetRest p c).length < p.packetSize := by
      rw [hready.empty, List.length_nil, Nat.zero_add]
      exact packetRest_length_lt hp c
    rw [he, takeBytes_of_short hready.good hshort, hready.empty]
    exact .inr ⟨acc, hacc, rfl⟩

/-- A container is folded as `DECODE` folds its packets, or the group fails: by a head, or by the container's length. -/
theorem takeContainer_of_ready {n : Nat} (hp : p.wf = true) (h : Ready n d) (c : Bytes) :
    ((wholePackets p c = false ∨ foldPackets p d.acc (cutPackets p c) = none) ∧ (takeContainer p c d).dfail = true) ∨
    (wholePackets p c = true ∧ ∃ acc, foldPackets p d.acc (cutPackets p c) = some acc ∧
      takeContainer p c d = d.folded n (cutPackets p c) acc) := by
  rw [takeContainer]
  obtain ⟨hnone, hfail⟩ | ⟨acc, hacc, he⟩ := takeBytes_of_ready hp h c
  · rw [checkRemainder_of_failed hfail]
    exact .inl ⟨.inr hnone, hfail⟩
  · rw [he]
    cases hw : wholePackets p c with
    | true =>
      have hrest := wholePackets_iff.1 hw
      refine .inr ⟨rfl, acc, hacc, (checkRemainder_of_empty hrest).trans ?_⟩
      rw [hrest, ← (h.folded (cutPackets p c) acc).empty]
    | false =>
      have hrest : packetRest p c ≠ [] := fun hrest => by simp [wholePackets_iff.2 hrest] at hw
      have he' := checkRemainder_of_remainder
        (d := { d.folded n (cutPackets p c) acc with pbuf := packetRest p c }) h.good hrest
      rw [he']
      exact .inl ⟨.inl rfl, fail_dfail _⟩

/-- The containers of a group, one after the other. -/
theorem takeContainers_of_ready {n : Nat} (hp : p.wf = true) (h : Ready n d) (cs : List Bytes) :
    (((∃ c ∈ cs, wholePackets p c = false) ∨ foldPackets p d.acc (cs.flatMap (cutPackets p)) = none) ∧
      (takeContainers p cs d).dfail = true) ∨
    ((∀ c ∈ cs, wholePackets p c = true) ∧ ∃ acc, foldPackets p d.acc (cs.flatMap (cutPackets p)) = some acc ∧
      takeContainers p cs d = d.folded n (cs.flatMap (cutPackets p)) acc) := by
  induction cs generalizing n d with
  | nil => exact .inr ⟨nofun, d.acc, rfl, (Dec.folded_nil h).symm⟩
  | cons c cs ih =>
    rw [List.flatMap_cons, foldPackets_append, takeContainers, List.foldl_cons]
    obtain ⟨hbad, hfail⟩ | ⟨hc, acc, hacc, he⟩ := takeContainer_of_ready hp h c
    · refine .inl ⟨hbad.imp (fun hc => ⟨c, List.mem_cons_self, hc⟩) fun hnone => ?_, ?_⟩
      · rw [hnone, Option.bind_none]
      · rw [← takeContainers, takeContainers_of_failed cs hfail, hfail]
    · rw [he, hacc, Option.bind_some]
      obtain ⟨hbad, hfail⟩ | ⟨hcs, acc', hacc', he'⟩ := ih (h.folded (cutPackets p c) acc)
      · exact .inl ⟨hbad.imp_left fun ⟨c', hmem, hc'⟩ => ⟨c', List.mem_cons_of_mem _ hmem, hc'⟩, hfail⟩
      · exact .inr ⟨List.forall_mem_cons.2 ⟨hc, hcs⟩, acc', hacc', he'.trans (Dec.folded_folded ..)⟩

end Take

/-- The state changes of a whole group. -/
def takeGroup (p : Build) (cs : List Bytes) (d : Dec) : Dec := finishGroup (takeContainers p cs (beginGroup d))

/-- What a group leaves behind is what `DECODE` says (R160, R161). -/
theorem takeGroup_decodes {p : Build} (hp : p.wf = true) (cs : List Bytes) (d : Dec) :
    (decodeGroup p cs = .framingError ∧ (takeGroup p cs d).dfail = true ∧ (takeGroup p cs d).dout = d.dout) ∨
    (∃ out ccw, decodeGroup p cs = .ok out ccw ∧ (takeGroup p cs d).dfail = false ∧
      (takeGroup p cs d).dccw = ccw ∧ (takeGroup p cs d).dout = d.dout ++ closedRecords out) := by
  have hready : Ready 0 (beginGroup d) := ⟨rfl, rfl, rfl⟩
  have hdout : (takeContainers p cs (beginGroup d)).dout = d.dout := takeContainers_dout ..
  rw [takeGroup]
  obtain ⟨hbad, hfail⟩ | ⟨hcs, out, hout, he⟩ := takeContainers_of_ready hp hready cs
  · have hdecode : decodeGroup p cs = .framingError := by
      obtain ⟨c, hmem, hc⟩ | hnone := hbad
      · exact decodeGroup_of_not_whole hmem hc
      · exact decodeGroup_of_fold_none hnone
    rw [finishGroup_of_failed (.inl hfail)]
    exact .inl ⟨hdecode, rfl, hdout⟩
  · refine .inr ⟨out, _, (decodeGroup_of_whole hcs).trans (decodePackets_of_some hout), ?_⟩
    have hready' := hready.folded (cs.flatMap (cutPackets p)) out
    rw [he, finishGroup_of_good hready'.good hready'.empty]
    exact ⟨rfl, Bool.false_or _, rfl⟩

/-! ## The runs of one group (R161) -/

/-- The commands `is` take DEC from `d` to `e` and nothing else with it, a failed group stays failed, and every response has
`CODE` 0 if the group has not failed at the end. -/
structure GroupRun (is : List Instr) (d e : Dec) : Prop where
  failed : d.dfail = true → e.dfail = true
  run : ∀ s : State, s.dec = d → ∃ rs, Run s is rs { s with dec := e, rsp := s.rsp ++ rs } ∧
    (e.dfail = false → ∀ r ∈ rs, r.extractLsb' 0 2 = 0)

section GroupRun

variable {d e f : Dec} {is js : List Instr} {s : State}

theorem GroupRun.nil : GroupRun [] d d :=
  ⟨id, fun s hs => ⟨[], by simpa [← hs] using Run.nil, nofun⟩⟩

theorem GroupRun.append (h : GroupRun is d e) (h' : GroupRun js e f) : GroupRun (is ++ js) d f := by
  refine ⟨h'.failed ∘ h.failed, fun s hs => ?_⟩
  obtain ⟨rs, hrun, hok⟩ := h.run s hs
  obtain ⟨qs, hrun', hok'⟩ := h'.run { s with dec := e, rsp := s.rsp ++ rs } rfl
  refine ⟨rs ++ qs, by simpa using hrun.append hrun', fun hf => ?_⟩
  have he : e.dfail = false := Bool.eq_false_iff.2 fun he => by simp [h'.failed he] at hf
  exact List.forall_mem_append.2 ⟨hok he, hok' hf⟩

/-- One command that R159 answers from the group's flags. -/
theorem GroupRun.single {i : Instr} {g : Dec → Dec} (hfail : d.dfail = true → (g d).dfail = true)
    (he : ∀ s : State, s.dec = d → Effect s i (respondGroup (s.onDec g))) : GroupRun [i] d (g d) := by
  refine ⟨hfail, fun s hs => ⟨[groupRecord (g d)], ?_, fun hf => ?_⟩⟩
  · subst hs
    exact .cons (he s rfl) rfl .nil
  · rw [List.forall_mem_singleton, groupRecord_code, hf]
    rfl

theorem groupRun_decPuts (hb : d.dbusy = true) (bytes : Bytes) :
    GroupRun (bytes.map .decPut) d (takeBytes Config.build bytes d) := by
  induction bytes generalizing d with
  | nil => exact .nil
  | cons b bytes ih =>
    have hput : GroupRun [.decPut b] d (takeContainerByte Config.build b d) :=
      .single (fun hf => by rwa [takeContainerByte_of_failed b hf]) (by rintro s rfl; exact .decPut hb)
    exact hput.append (ih (by simpa using hb))

theorem groupRun_container (hb : d.dbusy = true) (c : Bytes) :
    GroupRun (containerCommands c) d (takeContainer Config.build c d) :=
  (groupRun_decPuts hb c).append <|
    .single (fun hf => by rwa [checkRemainder_of_failed hf])
      (by rintro s hs; exact .decEoc (by rw [hs, takeBytes_dbusy, hb]))

theorem groupRun_containers (hb : d.dbusy = true) (cs : List Bytes) :
    GroupRun (cs.flatMap containerCommands) d (takeContainers Config.build cs d) := by
  induction cs generalizing d with
  | nil => exact .nil
  | cons c cs ih => exact (groupRun_container hb c).append (ih ((takeContainer_dbusy ..).trans hb))

theorem run_decStart (hb : s.dec.dbusy = false) :
    Run s [.decStart] [0x00] { s with dec := beginGroup s.dec, rsp := s.rsp ++ [0x00] } :=
  .cons (.decStarted hb) rfl .nil

theorem run_decEnd (hb : s.dec.dbusy = true) :
    Run s [.decEnd] [groupRecord (finishGroup s.dec)]
      { s with dec := finishGroup s.dec, rsp := s.rsp ++ [groupRecord (finishGroup s.dec)] } :=
  .cons (.decEnded hb) rfl .nil

/-- All the commands of a group: the last response tells its result, and the others have `CODE` 0 if it has not failed. -/
theorem run_decodeCommands (hb : s.dec.dbusy = false) (cs : List Bytes) :
    ∃ rs, Run s (decodeCommands cs) (rs ++ [groupRecord (takeGroup Config.build cs s.dec)])
        { s with
          dec := takeGroup Config.build cs s.dec
          rsp := s.rsp ++ rs ++ [groupRecord (takeGroup Config.build cs s.dec)] } ∧
      ((takeGroup Config.build cs s.dec).dfail = false → ∀ r ∈ rs, r.extractLsb' 0 2 = 0) := by
  have hcontainers := groupRun_containers (d := beginGroup s.dec) rfl cs
  obtain ⟨rs, hrun, hok⟩ := hcontainers.run { s with dec := beginGroup s.dec, rsp := s.rsp ++ [0x00] } rfl
  have hend := run_decEnd (s := { s with
    dec := takeContainers Config.build cs (beginGroup s.dec), rsp := s.rsp ++ [0x00] ++ rs }) (takeContainers_dbusy ..)
  refine ⟨[0x00] ++ rs, ?_, fun hf => ?_⟩
  · simpa [decodeCommands, takeGroup] using ((run_decStart hb).append hrun).append hend
  · refine List.forall_mem_append.2 ⟨List.forall_mem_singleton.2 rfl, hok (Bool.eq_false_iff.2 fun hfail => ?_)⟩
    simp [takeGroup, finishGroup_of_failed (.inl hfail)] at hf

/-- R161's interleaving: taking the commands of the configuration and of ENC out of a run changes nothing for DEC and for
the responses to the other commands (R34). -/
theorem Run.without_cfg_enc {t : State} {rs : List RspRecord} (h : Run s is rs t) (cfg : Cfg) (enc : Enc)
    (rsp : List RspRecord) :
    Run { s with cfg := cfg, enc := enc, rsp := rsp } (is.filter isDecCommand) (responsesTo isDecCommand is rs)
      { t with cfg := cfg, enc := enc, rsp := rsp ++ responsesTo isDecCommand is rs } := by
  induction h generalizing rsp with
  | nil =>
    simpa [responsesTo] using Run.nil
  | @cons s u t i is r rs he hr _ ih =>
    cases hi : isDecCommand i with
    | false =>
      have hu : ({ u with cfg := cfg, enc := enc, rsp := rsp } : State) =
          { s with cfg := cfg, enc := enc, rsp := rsp } := by
        rw [he.dec_of_not_dec hi, he.host_eq]
      simpa [responsesTo, hi, hu] using ih rsp
    | true =>
      have he' : Effect { s with cfg := cfg, enc := enc, rsp := rsp } i
          { u with cfg := cfg, enc := enc, rsp := rsp ++ [r] } := by
        rw [he.host_eq]
        exact (he.beside_cfg_enc hi cfg enc).beside_rsp_host hr rsp s.host
      simpa [responsesTo, hi] using Run.cons he' rfl (ih (rsp ++ [r]))

end GroupRun

/-- Settles O50: the commands of the configuration and of ENC drop out of the run, and DEC folds the packets of a group as
`DECODE` does. -/
theorem decodeCommandsComputeDecode : Obligations.DecodeCommandsComputeDecode := by
  intro s cs is hb his
  obtain ⟨rs, t, hrun⟩ := run_total is s
  have hdec := hrun.without_cfg_enc s.cfg s.enc s.rsp
  rw [his] at hdec
  obtain ⟨qs, hgroup, hok⟩ := run_decodeCommands hb cs
  obtain ⟨hrs, ht⟩ := hdec.unique hgroup
  have htdec : t.dec = takeGroup Config.build cs s.dec := congrArg State.dec ht
  refine ⟨_, rs, hrun.runSteps s.host, hrun.rsp, hrun.length_eq, ?_⟩
  rw [hrs, List.getLast?_concat, htdec]
  refine ⟨finishGroup_dbusy _, rfl, rfl, ?_⟩
  obtain ⟨hdecode, hfail, hdout⟩ | ⟨out, ccw, hdecode, hgood, rfl, hdout⟩ :=
    takeGroup_decodes Config.build_wf cs s.dec <;> rw [hdecode]
  · refine ⟨nofun, fun _ => ⟨⟨_, rfl, ?_⟩, hdout⟩⟩
    rw [groupRecord_code, hfail]
    rfl
  · refine ⟨?_, nofun⟩
    rintro _ _ ⟨⟩
    refine ⟨List.forall_mem_append.2 ⟨hok hgood, List.forall_mem_singleton.2 ?_⟩, ?_, hdout⟩
    · rw [groupRecord_code, hgood]
      rfl
    · rw [groupRecord_of_good hgood]

/-- Settles O53: no packet, no byte, no wrong counter, and the group closes an empty buffer. -/
theorem emptyGroupDecodesToNothing : Obligations.EmptyGroupDecodesToNothing := by
  refine ⟨fun p n hp => ?_, fun s hb => ?_⟩
  · have hempty : ∀ c ∈ List.replicate n ([] : Bytes), c.length % p.packetSize = 0 := fun c hc => by
      rw [List.eq_of_mem_replicate hc, List.length_nil, Nat.zero_mod]
    exact decodeGroup_of_flatten_eq (pkts := []) hp hempty nofun (by simp)
  · have h := ((run_decStart hb).append (run_decEnd rfl)).runSteps s.host
    have hend : finishGroup (beginGroup s.dec) = _ := finishGroup_of_good rfl rfl
    refine ⟨_, h, congrArg Dec.dout hend, ?_⟩
    have hrecord : groupRecord (finishGroup (beginGroup s.dec)) = 0x00 := by
      rw [hend, groupRecord_of_good] <;> rfl
    simp [hrecord]

/-- Settles O54: a container that is not whole makes `DECODE` fail, and the commands of the group with it. -/
theorem corruptContainerFailsItsGroup : Obligations.CorruptContainerFailsItsGroup := by
  refine ⟨fun p cs c _ hc hl => decodeGroup_of_not_whole hc (not_wholePackets_of_mod hl), fun s cs c hb hc hl => ?_⟩
  have hdecode : decodeGroup Config.build cs = .framingError :=
    decodeGroup_of_not_whole hc (not_wholePackets_of_mod hl)
  obtain ⟨rs, hrun, -⟩ := run_decodeCommands hb cs
  obtain ⟨-, hfail, hdout⟩ | ⟨out, ccw, hdecode', -⟩ := takeGroup_decodes Config.build_wf cs s.dec
  · refine ⟨_, _, hrun.runSteps s.host, hdout, List.getLast?_concat, ?_⟩
    rw [groupRecord_code, hfail]
    rfl
  · simp [hdecode] at hdecode'

/-- Settles O55: the bytes of whole packets are folded, the rest waits, and a group that failed holds nothing (R31 f). -/
theorem deframerFollowsItsRule : Obligations.DeframerFollowsItsRule := by
  intro s bytes hb hf hp
  obtain ⟨rs, hrun, -⟩ := (groupRun_decPuts hb bytes).run s rfl
  have hrun := hrun.runSteps s.host
  rw [List.length_map] at hrun
  refine ⟨_, hrun, (takeBytes_dbusy ..).trans hb, takeBytes_dout .., fun hgood => ?_, fun _ hfail => ?_⟩
  · have hready : Ready s.dec.dcc.toNat s.dec := ⟨hf, hp, by simp⟩
    obtain ⟨-, hfail⟩ | ⟨acc, -, he⟩ := takeBytes_of_ready Config.build_wf hready bytes
    · exact absurd (hgood.symm.trans hfail) (by decide)
    · have hcount : s.dec.dcc + BitVec.ofNat 4 (bytes.length / 188) =
          BitVec.ofNat 4 (s.dec.dcc.toNat + (cutPackets Config.build bytes).length) := by
        rw [cutPackets_length, BitVec.ofNat_add, BitVec.ofNat_toNat, BitVec.setWidth_eq]
        rfl
      rw [hcount]
      exact ⟨congrArg Dec.pbuf he, (congrArg (List.length ∘ Dec.pbuf) he).trans (packetRest_length ..),
        congrArg Dec.dcc he⟩
  · have hinv : DecInv Config.build s.dec := ⟨by simp [hp], by simp [hb], by simp [hf]⟩
    exact (hinv.takeBytes Config.build_wf hb bytes).failed hfail

end Sys2Proof.Machine

/-! PROOF. The statements of the exceptions (60_exceptions.md). First the steps that change nothing (R184) and that
none stops TSPE (R180). Then, for every presented word, that each error `CODE` of its response stands for the causes of R171 to R173. -/

namespace Sys2Proof.Machine

/-! ## Steps that change nothing, and steps that always answer (R180, R184) -/

/-- Settles O8: neither an empty list nor a record taken reaches a unit of TSPE. -/
theorem idleAndTakenRecordsChangeNothing : Obligations.IdleAndTakenRecordsChangeNothing :=
  fun _ => ⟨step_of_idle, fun _ _ => step_of_take⟩

/-- No arm of `exec` faults or refuses. -/
theorem exec_answers_next (i : Instr) (s : State) : ∃ t, exec i s = .next t := by
  cases i <;> exact ⟨_, rfl⟩

/-- Settles O9, by HOST's next step. -/
theorem everyStepAnswersNext : Obligations.EveryStepAnswersNext := by
  intro s
  rcases hp : s.host.pending with - | ⟨w | ch | -, rest⟩
  · exact ⟨_, step_of_idle hp⟩
  · cases hd : decode w with
    | command i => simpa only [step_of_command hp hd] using exec_answers_next i (takeCommand rest s)
    | illegal why => exact ⟨_, step_of_illegal hp hd⟩
  · exact ⟨_, step_of_take hp⟩
  · exact ⟨_, step_of_reset hp⟩

/-! ## When a group has failed after a command (R142 to R144, R172) -/

theorem checkRemainder_dfail_iff (d : Dec) : (checkRemainder d).dfail = true ↔ d.dfail = true ∨ d.pbuf ≠ [] := by
  obtain ⟨-, hp, he⟩ | ⟨h, he⟩ := checkRemainder_cases d <;> rw [he]
  · exact iff_of_true rfl (.inr hp)
  · exact ⟨.inl, fun h' => h'.elim id fun hp => h.resolve_right hp⟩

theorem finishGroup_dfail_iff (d : Dec) : (finishGroup d).dfail = true ↔ d.dfail = true ∨ d.pbuf ≠ [] := by
  obtain ⟨hf, hp, he⟩ | ⟨h, he⟩ := finishGroup_cases d <;> rw [he]
  · simp [hf, hp]
  · exact iff_of_true rfl h

theorem foldPacket_dfail_iff (p : Build) (P : Bytes) (d : Dec) :
    (foldPacket p P d).dfail = true ↔ d.dfail = true ∨ readHead p P = none := by
  obtain ⟨h, he⟩ | ⟨_, _, h, he⟩ := foldPacket_cases p P d <;> simp [he, h]

/-- A byte fails the group exactly when it completes a packet whose head is unrecognized (R172 b, c). -/
theorem takeContainerByte_dfail_iff (b : Byte) (s : State) :
    (takeContainerByte Config.build b s.dec).dfail = true ↔ s.dec.dfail = true ∨ badPacketCompleted b s := by
  obtain ⟨hf, he⟩ | ⟨hf, hl, he⟩ | ⟨hf, hl, he⟩ := takeContainerByte_cases Config.build b s.dec <;> rw [he]
  · simp [hf]
  · have hincomplete : ¬ badPacketCompleted b s := fun h => hl h.1
    simp [hf, hincomplete]
  · have hbad : badPacketCompleted b s ↔ readHead Config.build (s.dec.pbuf ++ [b]) = none := by
      rw [readHead_eq_none_iff]
      exact and_iff_right hl
    rw [foldPacket_dfail_iff, hbad]

/-! ## The causes of the three errors exclude each other (R171 to R173) -/

section Causes

variable {s t : State} {w : Word} {i : Instr}

theorem illegalCause_iff (hd : decode w = .command i) : illegalCause w s ↔ sequenceViolation i s = true := by
  simp [illegalCause, hd]

theorem configurationCause.not_illegal (h : configurationCause w s) : ¬ illegalCause w s := by
  obtain ⟨v, hd, -, hb⟩ | ⟨hd, -, hb⟩ := h <;> simp [illegalCause_iff hd, sequenceViolation, hb]

theorem framingCause.groupWord (h : framingCause w s) : GroupWord w := by
  obtain ⟨-, ⟨hd, -⟩ | ⟨b, hd, -⟩ | ⟨hd, -⟩⟩ := h
  exacts [.inr hd, .inl ⟨b, hd⟩, hd]

theorem GroupWord.not_illegal (hw : GroupWord w) (hb : s.dec.dbusy = true) : ¬ illegalCause w s := by
  obtain ⟨b, hd⟩ | hd | hd := hw <;> simp [illegalCause_iff hd, sequenceViolation, hb]

theorem GroupWord.not_configuration (hw : GroupWord w) : ¬ configurationCause w s := by
  obtain ⟨b, hd⟩ | hd | hd := hw <;> simp [configurationCause, hd]

/-! ## Every response has the cause its `CODE` stands for -/

/-- The `CODE` answered to `w` is an error exactly when the rule of that error lists a cause. -/
structure CodeHasItsCause (w : Word) (s : State) (code : RspCode) : Prop where
  configuration : code = .configurationError ↔ configurationCause w s
  framing : code = .framingError ↔ framingCause w s
  illegal : code = .illegalCommand ↔ illegalCause w s

theorem CodeHasItsCause.of_configuration (h : configurationCause w s) : CodeHasItsCause w s .configurationError :=
  ⟨iff_of_true rfl h, iff_of_false nofun fun hf => hf.groupWord.not_configuration h, iff_of_false nofun h.not_illegal⟩

theorem CodeHasItsCause.of_illegal (h : illegalCause w s) : CodeHasItsCause w s .illegalCommand :=
  ⟨iff_of_false nofun fun hc => hc.not_illegal h, iff_of_false nofun fun hf => hf.groupWord.not_illegal hf.1 h,
    iff_of_true rfl h⟩

theorem CodeHasItsCause.of_none (hc : ¬ configurationCause w s) (hf : ¬ framingCause w s) (hi : ¬ illegalCause w s) :
    CodeHasItsCause w s .ok :=
  ⟨iff_of_false nofun hc, iff_of_false nofun hf, iff_of_false nofun hi⟩

/-- A command of a group in progress is answered from `DFAIL` (R159). -/
theorem CodeHasItsCause.of_group {dfail : Bool} (hw : GroupWord w) (hb : s.dec.dbusy = true)
    (hf : dfail = true ↔ framingCause w s) : CodeHasItsCause w s (groupCode dfail) := by
  have hcode : groupCode dfail = .framingError ↔ dfail = true := by cases dfail <;> decide
  have hother : groupCode dfail ≠ .configurationError ∧ groupCode dfail ≠ .illegalCommand := by
    cases dfail <;> decide
  exact ⟨iff_of_false hother.1 hw.not_configuration, hcode.trans hf, iff_of_false hother.2 (hw.not_illegal hb)⟩

theorem Effect.code_has_cause (he : Effect s i t) (hd : decode w = .command i) :
    ∃ code, CodeHasItsCause w s code ∧ ∃ ccw, t.rsp = s.rsp ++ [rspRecord code ccw] := by
  have hlegal (hv : sequenceViolation i s = false) : ¬ illegalCause w s := by
    rw [illegalCause_iff hd, hv]
    decide
  cases he with
  | violation hv => exact ⟨_, .of_illegal ((illegalCause_iff hd).2 hv), _, rfl⟩
  | chidRefused hb hv => exact ⟨_, .of_configuration (.inl ⟨_, hd, hv, hb⟩), _, rfl⟩
  | startWithoutChid hb hv => exact ⟨_, .of_configuration (.inr ⟨hd, hv, hb⟩), _, rfl⟩
  | chidLoaded hb hv | encStarted hb hv =>
    exact ⟨_, .of_none (by simp [configurationCause, hd, hv]) (by simp [framingCause, hd]) (hlegal hb), _, rfl⟩
  | decStarted hb =>
    exact ⟨_, .of_none (by simp [configurationCause, hd]) (by simp [framingCause, hd]) (hlegal hb), _, rfl⟩
  | encPut hb | encEnded hb =>
    have hv := hlegal (by simp [sequenceViolation, hb])
    exact ⟨_, .of_none (by simp [configurationCause, hd]) (by simp [framingCause, hd]) hv, _, rfl⟩
  | @decPut b hb =>
    refine ⟨_, .of_group (.inl ⟨b, hd⟩) hb ((takeContainerByte_dfail_iff b s).trans ?_), _, rfl⟩
    simp [framingCause, hd, hb, or_comm]
  | decEoc hb =>
    refine ⟨_, .of_group (.inr (.inl hd)) hb ((checkRemainder_dfail_iff s.dec).trans ?_), _, rfl⟩
    simp [framingCause, hd, hb, or_comm]
  | decEnded hb =>
    refine ⟨_, .of_group (.inr (.inr hd)) hb ((finishGroup_dfail_iff s.dec).trans ?_), _, rfl⟩
    simp [framingCause, hd, hb, or_comm]

variable {rest : List HostEvent}

/-- No cause reads HOST's list, so the causes may be read before the word is taken. -/
theorem code_has_cause_of_step (hp : s.host.pending = .command w :: rest) (h : step s = .next t) :
    ∃ code, CodeHasItsCause w s code ∧ ∃ ccw, t.rsp = s.rsp ++ [rspRecord code ccw] := by
  cases hd : decode w with
  | command i =>
    have he := effect_of_exec ((step_of_command hp hd).symm.trans h)
    obtain ⟨code, ⟨hc, hf, hi⟩, hr⟩ := he.code_has_cause hd
    exact ⟨code, ⟨hc, hf, hi⟩, hr⟩
  | illegal why =>
    obtain rfl := Host.Outcome.next.inj ((step_of_illegal hp hd).symm.trans h)
    exact ⟨_, .of_illegal (.inl ⟨why, hd⟩), _, rfl⟩

/-- The six legal records (R82), by the error their `CODE` stands for. -/
theorem legal_rspRecord_iff (code : RspCode) (ccw : Bool) (hl : rspRecord code ccw ∈ legalResponses) :
    (rspRecord code ccw = 0x01 ↔ code = .configurationError) ∧
    (rspRecord code ccw = 0x02 ∨ rspRecord code ccw = 0x06 ↔ code = .framingError) ∧
    (rspRecord code ccw = 0x03 ↔ code = .illegalCommand) := by
  revert hl
  cases code <;> cases ccw <;> decide

/-- What a presented word is answered, by the causes of the errors. -/
theorem response_iff_cause (hp : s.host.pending = .command w :: rest) (h : step s = .next t) :
    (t.rsp = s.rsp ++ [0x01] ↔ configurationCause w s) ∧
    (t.rsp = s.rsp ++ [0x02] ∨ t.rsp = s.rsp ++ [0x06] ↔ framingCause w s) ∧
    (t.rsp = s.rsp ++ [0x03] ↔ illegalCause w s) := by
  obtain ⟨r, hr, ha⟩ := answer_of_step hp h
  obtain ⟨code, hcause, ccw, hr'⟩ := code_has_cause_of_step hp h
  obtain rfl := List.singleton_inj.1 (List.append_cancel_left (hr.symm.trans hr'))
  obtain ⟨h1, h2, h3⟩ := legal_rspRecord_iff code ccw ha.legal
  have hrsp (x : RspRecord) : t.rsp = s.rsp ++ [x] ↔ rspRecord code ccw = x := by simp [hr]
  simp only [hrsp]
  exact ⟨h1.trans hcause.configuration, h2.trans hcause.framing, h3.trans hcause.illegal⟩

/-- With a cause of `IllegalCommand` a step is `raise IllegalCommand` and nothing before it (R173). -/
theorem step_of_illegalCause (hp : s.host.pending = .command w :: rest) (hi : illegalCause w s) :
    step s = .next (raise .illegalCommand (takeCommand rest s)) := by
  obtain ⟨why, hd⟩ | ⟨i, hd, hv⟩ := hi
  · exact step_of_illegal hp hd
  · exact (step_of_command hp hd).trans (exec_of_violation hv)

end Causes

/-- Settles O23: `CODE` 1 is the answer to the causes of R171 alone. -/
theorem configurationErrorHasExactlyTheseCauses : Obligations.ConfigurationErrorHasExactlyTheseCauses :=
  fun _ _ _ _ hp h => (response_iff_cause hp h).1

/-- Settles O24: `CODE` 2, with the warning or without, is the answer to the causes of R172 alone. -/
theorem framingErrorHasExactlyTheseCauses : Obligations.FramingErrorHasExactlyTheseCauses :=
  fun _ _ _ _ hp h => (response_iff_cause hp h).2.1

/-- Settles O25: `CODE` 3 is the answer to the causes of R173 alone, and comes without a state change. -/
theorem illegalCommandHasExactlyTheseCauses : Obligations.IllegalCommandHasExactlyTheseCauses :=
  fun _ _ _ _ hp h => ⟨(response_iff_cause hp h).2.2, fun hi =>
    Host.Outcome.next.inj (h.symm.trans (step_of_illegalCause hp hi))⟩

end Sys2Proof.Machine

/-! PROOF. The statement of the reset (70_reset_and_hazards.md). -/

namespace Sys2Proof.Machine

/-- Settles O38: a reset step is `resetEvent` after HOST's event is dropped (`step_of_reset`), which writes out the fields
of the state after power-on and keeps the histories; `CHID` is the model's value for it (log entry 2). -/
theorem resetEventFollowsItsRule : Obligations.ResetEventFollowsItsRule := by
  intro s rest hp
  refine ⟨State.reset.cfg.chid, (step_of_reset hp).trans (congrArg Host.Outcome.next ?_)⟩
  simp [resetEvent, State.reset]

end Sys2Proof.Machine

/-! PROOF. The statement of the words of the worked examples (40_config.md, 41_encoder.md, 42_decoder.md). -/

namespace Sys2Proof.Machine

/-- Settles O4: each word is the encoding of the command it stands for, which decodes back (`decode_encode`). -/
theorem workedExampleWordsDecode : Obligations.WorkedExampleWordsDecode :=
  ⟨decode_encode (.cfgChid 0x30), decode_encode .encStart, decode_encode (.encPut 0xAB), decode_encode .encEnd,
    decode_encode .decStart, decode_encode (.decPut 0x47), decode_encode .decEoc, decode_encode .decEnd⟩

end Sys2Proof.Machine
